-- ==== Sys2Proof/Word.lean ====
section
/-! DEFINITION. The widths of the block (00_scope.md R8) and its plainest values: words, field elements, working buffers. -/

namespace Sys2Proof

/-- A 32-bit word of the host bus, of RES and of CMD (R8, WORD). -/
abbrev Word := BitVec 32

/-- The content of a field register: a canonical field element or a scalar, 163 bits (R17). Being canonical is
carried by the width. -/
abbrev Elem := BitVec 163

/-- A working buffer of the CORE, `W = 192` bits (R8, R23). -/
abbrev Buf := BitVec 192

/-- A 4-bit register index of a command word (R52). -/
abbrev Reg := BitVec 4

/-- A 12-bit byte offset within the register window (R33). -/
abbrev Offset := BitVec 12

/-- An affine point, a pair of field elements (R19, R85). -/
structure Point where
  x : Elem
  y : Elem
deriving DecidableEq, Repr

end Sys2Proof
end

