-- ==== Sys2Proof/Config.lean ====
section
/-! DEFINITION. What an implementation fixes: the CURVE constants with the spec's defaults, the OPEN parameter BASE, and the free values (R8; 92_eei_decisions.md; 93_implementation_defined.md). -/

namespace Sys2Proof

/-- The constants of parameter `CURVE` (R8, R24): the reduction polynomial, which has bit 163 set and so needs a
buffer's width, and the elements `b`, `Gx`, `Gy`, `n`. The coefficient `a = 1` is fixed in the datapath. -/
structure Curve where
  f : Buf
  b : Elem
  gx : Elem
  gy : Elem
  n : Elem
deriving DecidableEq, Repr

/-- The spec's default `CURVE` (R8, D22). PRESUMED by the spec itself ("from general knowledge"), log entry 1;
unsafe where a claim uses the numbers. -/
def Config.k163 : Curve where
  f := 0x800000000000000000000000000000000000000C9
  b := 1
  gx := 0x2FE13C0537BBC11ACAA07D793DE4E6D5E5C94EEE8
  gy := 0x289070FB05D38FF58321F2E800536D538CCDAA3D9
  n := 0x4000000000000000000020108A2E0CC0D99F8A5EF

/-- The OPEN parameter `BASE` counted in 4 KiB pages (R33: it must be 4 KiB aligned). No value is chosen; log entry 10. -/
opaque Config.basePage : Nat

/-- The window's base address, 4 KiB aligned (R33). -/
def Config.base : Nat := 4096 * Config.basePage

/-- Free value: what the working buffer number `name` holds after the evaluation, or the reset, number `instant`, where
the spec does not give its content (R31, U10). DESIGN CHOICE (log entry 4); safe, nothing constrains it. -/
opaque Config.workingBuffer (instant name : Nat) : Buf

/-- Free value: the read data of the transaction that the reset number `instant` cuts short (R113, U5). Log entry 6; safe. -/
opaque Config.resetReadData (instant : Nat) : Word

/-- Free value: whether the response of the transaction that the reset number `instant` cuts short is OK (R113, U5).
Log entry 6; safe. -/
opaque Config.resetRespOk (instant : Nat) : Bool

/-- Whether the last line of R87 takes its product `x·x` before its product `(lam + 1)·x3`. The spec gives no order, and
only the working buffers tell the two apart. DESIGN CHOICE (log entry 18); safe, no order is chosen. -/
opaque Config.doubleSquaresFirst : Bool

/-- Free value: what the inversion loop leaves when 324 iterations do not end it. R79 shows that this never happens for
an irreducible `f` and a nonzero operand. DEDUCED (log entry 7); safe. -/
opaque Config.inverterOverrun (f : Buf) (x : Elem) : Elem

end Sys2Proof
end

