-- ==== Sys2Proof/Machine/State.lean ====
section
/-! DEFINITION. The whole state of the block as plain data (10_state.md), the reasons a step can stop, and the state after reset (R31). -/

namespace Sys2Proof.Machine

/-- A command error, `CmdError(code)` (60_exceptions.md R99): the codes 1, 2 and 3. -/
inductive CmdError where
  /-- ECODE 1: the word decodes as Illegal. -/
  | illegalCmd
  /-- ECODE 2: FINV of zero. -/
  | zeroInverse
  /-- ECODE 3: GETBIT or CLRBIT with an index of 192 or more. -/
  | bitIndex
deriving DecidableEq, Repr

/-- STATUS (R25), field by field. ECODE has exactly the four values 0 to 3 (U12): `none` is 0. -/
structure Status where
  busy : Bool
  done : Bool
  err : Bool
  wign : Bool
  ecode : Option CmdError
deriving DecidableEq, Repr

/-- The result of evaluating a command (R28): a set of staged writes to field registers and to RES (R12), or an error. -/
inductive CmdResult where
  | writes (regs : List (Reg × Elem)) (res : Option Word)
  | error (code : CmdError)
deriving DecidableEq, Repr

/-- A point in the CORE's working buffers, each coordinate 192 bits (R23). -/
structure WorkPoint where
  x : Buf
  y : Buf
deriving DecidableEq, Repr

/-- The working buffers and loop counters of R23 (and `lam` of R13), which no host access reaches. An evaluation writes
those its pseudocode assigns (R13; Machine/Working.lean, log entry 18); `qPoint` and two of the counters, and all of them
after a reset, are free values (R31, U10; log entry 4).

The buffers are 192 bits wide (R23). R22, R23 and R95 give the loop counters no width: 9 bits for all three, the `i` of the
multiply loop, the signed shift count `i` of the inversion loop and the `i` of the scalar loop, is the model's DESIGN CHOICE
(log entry 17). R125 says of the shift count alone that 9 bits never overflow. -/
structure WorkBuffers where
  acc : Buf
  t : Buf
  u : Buf
  v : Buf
  g : Buf
  z : Buf
  lam : Buf
  rPoint : WorkPoint
  qPoint : WorkPoint
  mulCounter : BitVec 9
  invCounter : BitVec 9
  scalarCounter : BitVec 9
deriving DecidableEq, Repr

/-- The response code of a host transaction (R34). -/
inductive Resp where
  | ok
  | error
deriving DecidableEq, Repr

/-- The block's answer to a host transaction (R34). -/
inductive Response where
  | read (data : Word) (resp : Resp)
  | write (resp : Resp)
deriving DecidableEq, Repr

/-- A host transaction at the block's port (R34): `BusRead` and `BusWrite`, with the access size in bytes (R43). -/
inductive Transaction where
  | read (off : Offset) (size : Nat)
  | write (off : Offset) (size : Nat) (data : Word)
deriving DecidableEq, Repr

/-- What happens at the block, one thing at a time (R47; log entry 2). -/
inductive PortEvent where
  /-- A host transaction arrives and is processed. -/
  | bus (t : Transaction)
  /-- The CORE moves before the next transaction: a command in progress commits here (R28, R46). -/
  | core
  /-- `rst` is asserted, cutting short the transaction in progress if there is one (R113). -/
  | rst (inFlight : Option Transaction)
deriving DecidableEq, Repr

/-- The state of the block: the registers of R17, R21, R25, the ROM of R24, the working state of R23, the response
port of R34; and, of the model's own, the events still to come at the port and the counter that picks free values. -/
structure State where
  f : Vector Elem 16
  res : Word
  status : Status
  rom : Curve
  latchWord : Word
  latchF : Vector Elem 16
  staged : CmdResult
  work : WorkBuffers
  hostResp : Option Response
  port : List PortEvent
  freeIdx : Nat
deriving DecidableEq, Repr

/-- A reason to stop with a fault. There is none: nothing in the spec stops the block. A command error ends the
command and is reported in STATUS (R99, R100), and a bad access is answered with resp ERROR (R43, R104); both are next
states (log entry 12). -/
inductive Fault where
deriving DecidableEq, Repr

/-- A reason to refuse an instruction. -/
inductive Refusal where
  /-- `exec`'s arm for a command that has no meaning. No arm raises it: every command is modelled. Safe. -/
  | notModelled (mnemonic : String)
deriving DecidableEq, Repr

/-- The working buffers in `State.reset`. R31 leaves them unspecified and unobservable: DESIGN CHOICE,
log entry 8; unsafe. -/
def WorkBuffers.zero : WorkBuffers :=
  ⟨0, 0, 0, 0, 0, 0, 0, ⟨0, 0⟩, ⟨0, 0⟩, 0, 0, 0⟩

/-- STATUS after reset: 0x00000000 (R31). -/
def Status.zero : Status := ⟨false, false, false, false, none⟩

/-- The block right after reset (R31, R113), with the default `CURVE` in ROM. The latched operands, the staged results
and the working buffers are not given by R31 (DESIGN CHOICE, log entry 8; unsafe), nor are `hostResp` (log entry 5) and
the model's own `port` and `freeIdx` (log entries 2 and 4). -/
def State.reset : State where
  f := Vector.replicate 16 0
  res := 0
  status := Status.zero
  rom := Config.k163
  latchWord := 0
  latchF := Vector.replicate 16 0
  staged := .writes [] none
  work := WorkBuffers.zero
  hostResp := none
  port := []
  freeIdx := 0

end Sys2Proof.Machine
end

