-- ==== Sys2Proof/Machine/Flags.lean ====
section
/-! DEFINITION. The STATUS register: its bit layout (10_state.md R25) and how accept, commit and a dropped write change it (R27, R29, R42). -/

namespace Sys2Proof.Machine

/-- The ECODE field (R99): 0 for no error. -/
def ecodeBits : Option CmdError → BitVec 4
  | none => 0
  | some .illegalCmd => 1
  | some .zeroInverse => 2
  | some .bitIndex => 3

/-- STATUS as the host reads it (R25): BUSY 0, DONE 1, ERR 2, WIGN 3, ECODE 7:4, bits 31:8 zero. -/
def statusWord (st : Status) : Word :=
  (0 : BitVec 24) ++ ecodeBits st.ecode ++ BitVec.ofBool st.wign ++ BitVec.ofBool st.err ++
    BitVec.ofBool st.done ++ BitVec.ofBool st.busy

/-- STATUS at accept: BUSY 1 and all else 0 (R27). -/
def acceptedStatus : Status := ⟨true, false, false, false, none⟩

/-- STATUS at the commit of a result with that error code, or none: BUSY 0, DONE 1, ERR and ECODE as the result has
it, WIGN kept (R29). -/
def committedStatus (st : Status) (e : Option CmdError) : Status :=
  { busy := false, done := true, err := e.isSome, wign := st.wign, ecode := e }

/-- STATUS after a write dropped while busy (R42). -/
def droppedStatus (st : Status) : Status := { st with wign := true }

end Sys2Proof.Machine
end

