-- ==== Sys2Proof/Syntax.lean ====
section
/-! DEFINITION. The 16 commands of the opcode map (30_encoding.md R55), one constructor per row of spec/opcode_table.json. -/

namespace Sys2Proof

/-- A command with the operand fields its row gives it (R52, R55). A point operand is the raw index of its field;
that it is even, and that an LDC selector is at most 5, is `Instr.wellFormed`. -/
inductive Instr where
  | fmov (fd fa : Reg)                 -- 0x01, R68
  | ldc (fd : Reg) (sel : BitVec 8)    -- 0x02, R69
  | getbit (fa : Reg) (i : BitVec 8)   -- 0x03, R70
  | clrbit (fd : Reg) (i : BitVec 8)   -- 0x04, R71
  | iszero (fa : Reg)                  -- 0x05, R72
  | eq (fa fb : Reg)                   -- 0x06, R73
  | deg (fa : Reg)                     -- 0x07, R74
  | fadd (fd fa fb : Reg)              -- 0x10, R81
  | finc (fd fa : Reg)                 -- 0x11, R82
  | fmul (fd fa fb : Reg)              -- 0x12, R83
  | finv (fd fa : Reg)                 -- 0x13, R84
  | pisid (pa : Reg)                   -- 0x20, R91
  | ponc (pa : Reg)                    -- 0x21, R92
  | pdbl (pd pa : Reg)                 -- 0x22, R93
  | padd (pd pa pb : Reg)              -- 0x23, R94
  | pmul (pd pa fk : Reg)              -- 0x30, R97
deriving DecidableEq, Repr

end Sys2Proof
end

