-- ==== Sys2Proof/WellFormed.lean ====
section
/-! DEFINITION. When a command term is one the encoding admits: even point fields (R53) and an LDC selector of 0 to 5 (R54). -/

namespace Sys2Proof

/-- An even index, as a point field must hold (R53). -/
def evenReg (r : Reg) : Bool := !r.getLsbD 0

/-- A selector LDC has a constant for (R54, R69). -/
def validSelector (sel : BitVec 8) : Bool := decide (sel.toNat ≤ 5)

/-- The checks of R57 on the operands that the syntax keeps raw. Every other operand is good at every value of its field. -/
def Instr.wellFormed : Instr → Bool
  | .fmov _ _ => true
  | .ldc _ sel => validSelector sel
  | .getbit _ _ => true
  | .clrbit _ _ => true
  | .iszero _ => true
  | .eq _ _ => true
  | .deg _ => true
  | .fadd _ _ _ => true
  | .finc _ _ => true
  | .fmul _ _ _ => true
  | .finv _ _ => true
  | .pisid pa => evenReg pa
  | .ponc pa => evenReg pa
  | .pdbl pd pa => evenReg pd && evenReg pa
  | .padd pd pa pb => evenReg pd && evenReg pa && evenReg pb
  | .pmul pd pa _ => evenReg pd && evenReg pa

end Sys2Proof
end

