-- ==== Sys2Proof/Decode.lean ====
section
/-! DEFINITION. The command word: its fields (30_encoding.md R51), the opcode map (R55), the decoder (R57) and the encoder. -/

namespace Sys2Proof

/-- The fields of a command word (R51). A field that is not named is zero. -/
structure Fields where
  opc : BitVec 8
  rd : Reg := 0
  ra : Reg := 0
  rb : Reg := 0
  imm : BitVec 8 := 0
  rsv : BitVec 4 := 0
deriving DecidableEq, Repr

/-- The fields of the word `w`, at the places of R51. -/
def fieldsOf (w : Word) : Fields where
  opc := w.extractLsb' 0 8
  rd := w.extractLsb' 8 4
  ra := w.extractLsb' 12 4
  rb := w.extractLsb' 16 4
  imm := w.extractLsb' 20 8
  rsv := w.extractLsb' 28 4

/-- The word with the given fields: `OPC | RD << 8 | RA << 12 | RB << 16 | IMM << 20 | RSV << 28` (R51). -/
def wordOf (c : Fields) : Word :=
  c.rsv ++ c.imm ++ c.rb ++ c.ra ++ c.rd ++ c.opc

/-- The mnemonics of R55. -/
inductive Mnemonic where
  | FMOV | LDC | GETBIT | CLRBIT | ISZERO | EQ | DEG
  | FADD | FINC | FMUL | FINV
  | PISID | PONC | PDBL | PADD
  | PMUL
deriving DecidableEq, Repr

/-- The role a row of R55 gives a field (R52, R54): zero for `0`, `reg` for fd, fa, fb and fk, `point` for pd, pa and
pb, `imm` for a bit index or a constant selector. -/
inductive Role where
  | zero
  | reg
  | point
  | imm
deriving DecidableEq, Repr

/-- A row of the opcode map. -/
structure OpcodeRow where
  opc : BitVec 8
  mnemonic : Mnemonic
  rd : Role
  ra : Role
  rb : Role
  imm : Role
deriving DecidableEq, Repr

/-- The opcode map, row by row as R55 has it. -/
def opcodeMap : List OpcodeRow := [
  ⟨0x01, .FMOV,   .reg,   .reg,   .zero,  .zero⟩,
  ⟨0x02, .LDC,    .reg,   .zero,  .zero,  .imm⟩,
  ⟨0x03, .GETBIT, .zero,  .reg,   .zero,  .imm⟩,
  ⟨0x04, .CLRBIT, .reg,   .zero,  .zero,  .imm⟩,
  ⟨0x05, .ISZERO, .zero,  .reg,   .zero,  .zero⟩,
  ⟨0x06, .EQ,     .zero,  .reg,   .reg,   .zero⟩,
  ⟨0x07, .DEG,    .zero,  .reg,   .zero,  .zero⟩,
  ⟨0x10, .FADD,   .reg,   .reg,   .reg,   .zero⟩,
  ⟨0x11, .FINC,   .reg,   .reg,   .zero,  .zero⟩,
  ⟨0x12, .FMUL,   .reg,   .reg,   .reg,   .zero⟩,
  ⟨0x13, .FINV,   .reg,   .reg,   .zero,  .zero⟩,
  ⟨0x20, .PISID,  .zero,  .point, .zero,  .zero⟩,
  ⟨0x21, .PONC,   .zero,  .point, .zero,  .zero⟩,
  ⟨0x22, .PDBL,   .point, .point, .zero,  .zero⟩,
  ⟨0x23, .PADD,   .point, .point, .point, .zero⟩,
  ⟨0x30, .PMUL,   .point, .point, .reg,   .zero⟩]

/-- Why a word is Illegal: the return points of R57, in its order. -/
inductive IllegalCause where
  /-- Bits 31:28 are not 0. -/
  | reservedBits
  /-- No row of R55 has the opcode. -/
  | unknownOpcode
  /-- A field the row marks `0` is not 0 (R56). -/
  | mustBeZero
  /-- A point field holds an odd value (R53). -/
  | oddPoint
  /-- LDC with a selector of 6 or more (R54). -/
  | badSelector
deriving DecidableEq, Repr

/-- Bit 0 of a register field is 1, which makes a point operand illegal (R53). -/
def oddReg (r : Reg) : Bool := r.getLsbD 0

/-- The check of R57 on a register field with the given role. -/
def checkReg (role : Role) (r : Reg) : Option IllegalCause :=
  match role with
  | .zero => if r ≠ 0 then some .mustBeZero else none
  | .point => if oddReg r then some .oddPoint else none
  | .reg => none
  | .imm => none

/-- The check of R57 on the immediate field with the given role. -/
def checkImm (role : Role) (imm : BitVec 8) : Option IllegalCause :=
  match role with
  | .zero => if imm ≠ 0 then some .mustBeZero else none
  | .imm => none
  | .reg => none
  | .point => none

/-- LDC's own check, the last of R57: a selector above 5. -/
def checkSelector (mn : Mnemonic) (imm : BitVec 8) : Option IllegalCause :=
  if mn = .LDC ∧ 5 < imm.toNat then some .badSelector else none

/-- The checks of R57 on a word's fields against its row, in order: RD, RA, RB, IMM, then the selector. -/
def checkFields (row : OpcodeRow) (c : Fields) : Option IllegalCause :=
  checkReg row.rd c.rd <|> checkReg row.ra c.ra <|> checkReg row.rb c.rb <|>
    checkImm row.imm c.imm <|> checkSelector row.mnemonic c.imm

/-- The command a mnemonic makes of a word's fields (R55). -/
def build (mn : Mnemonic) (c : Fields) : Instr :=
  match mn with
  | .FMOV => .fmov c.rd c.ra
  | .LDC => .ldc c.rd c.imm
  | .GETBIT => .getbit c.ra c.imm
  | .CLRBIT => .clrbit c.rd c.imm
  | .ISZERO => .iszero c.ra
  | .EQ => .eq c.ra c.rb
  | .DEG => .deg c.ra
  | .FADD => .fadd c.rd c.ra c.rb
  | .FINC => .finc c.rd c.ra
  | .FMUL => .fmul c.rd c.ra c.rb
  | .FINV => .finv c.rd c.ra
  | .PISID => .pisid c.ra
  | .PONC => .ponc c.ra
  | .PDBL => .pdbl c.rd c.ra
  | .PADD => .padd c.rd c.ra c.rb
  | .PMUL => .pmul c.rd c.ra c.rb

/-- The row of R55 with the opcode, if there is one. -/
def rowOf (opc : BitVec 8) : Option OpcodeRow := opcodeMap.find? fun row => row.opc == opc

/-- The decoder, a total function on 32-bit words (R57). Illegal words are rejected with their cause; the machine
reports every cause as ECODE 1 (R58). -/
def decode (w : Word) : Except IllegalCause Instr :=
  let c := fieldsOf w
  if c.rsv ≠ 0 then .error .reservedBits
  else
    match rowOf c.opc with
    | none => .error .unknownOpcode
    | some row =>
      match checkFields row c with
      | some cause => .error cause
      | none => .ok (build row.mnemonic c)

/-- The instruction the decoder reads from a table word: bit 0 of `w` is bit 0 of the command word, and the bits from
`nbits` up are 0. A command is one 32-bit word (R60), so nothing longer decodes. -/
def decodeTableWord (nbits w : Nat) : Option Instr :=
  if nbits ≤ 32 then (decode (BitVec.ofNat 32 (w % 2 ^ nbits))).toOption else none

/-- The word of a command, with every field its row marks `0` left 0 (R55, R61). -/
def encode : Instr → Word
  | .fmov fd fa => wordOf { opc := 0x01, rd := fd, ra := fa }
  | .ldc fd sel => wordOf { opc := 0x02, rd := fd, imm := sel }
  | .getbit fa i => wordOf { opc := 0x03, ra := fa, imm := i }
  | .clrbit fd i => wordOf { opc := 0x04, rd := fd, imm := i }
  | .iszero fa => wordOf { opc := 0x05, ra := fa }
  | .eq fa fb => wordOf { opc := 0x06, ra := fa, rb := fb }
  | .deg fa => wordOf { opc := 0x07, ra := fa }
  | .fadd fd fa fb => wordOf { opc := 0x10, rd := fd, ra := fa, rb := fb }
  | .finc fd fa => wordOf { opc := 0x11, rd := fd, ra := fa }
  | .fmul fd fa fb => wordOf { opc := 0x12, rd := fd, ra := fa, rb := fb }
  | .finv fd fa => wordOf { opc := 0x13, rd := fd, ra := fa }
  | .pisid pa => wordOf { opc := 0x20, ra := pa }
  | .ponc pa => wordOf { opc := 0x21, ra := pa }
  | .pdbl pd pa => wordOf { opc := 0x22, rd := pd, ra := pa }
  | .padd pd pa pb => wordOf { opc := 0x23, rd := pd, ra := pa, rb := pb }
  | .pmul pd pa fk => wordOf { opc := 0x30, rd := pd, ra := pa, rb := fk }

end Sys2Proof
end

