-- ==== Sys2Proof/Machine/Bits.lean ====
section
/-! DEFINITION. The datapath primitives on 192-bit values and the register file: 40_representation.md R63 to R67, 10_state.md R17 and R19. -/

namespace Sys2Proof.Machine

/-- A field element in a working buffer: `zext_W` (R10). -/
def toBuf (v : Elem) : Buf := v.setWidth 192

/-- The selection `v[162:0]` of a working buffer (R9). -/
def toElem (v : Buf) : Elem := v.setWidth 163

/-- `get_bit(v, i)`, with the CORE's check of the index against `W = 192` (R63). -/
def getBit (v : Buf) (i : Nat) : Except CmdError Bool :=
  if i < 192 then .ok (v.getLsbD i) else .error .bitIndex

/-- `clear_bit(v, i)`: `v AND NOT 2^i`, with the same check (R64). -/
def clearBit (v : Buf) (i : Nat) : Except CmdError Buf :=
  if i < 192 then .ok (v &&& ~~~(1#192 <<< i)) else .error .bitIndex

/-- `is_zero(v)` (R65). -/
def isZero (v : Buf) : Bool := v == 0

/-- `equal(v, w)` (R65). -/
def equal (v w : Buf) : Bool := v == w

/-- `bitlen(v)`: the index of the highest set bit, plus one, and 0 for 0 (R10, R66). -/
def bitlen (v : Buf) : Nat := if v = 0 then 0 else v.toNat.log2 + 1

/-- The inner scan of R66: bits `base + n - 1` down to `base`. -/
def scanBits (v : Buf) (base : Nat) : Nat → Nat
  | 0 => 0
  | j + 1 => if v.getLsbD (base + j) then base + j + 1 else scanBits v base j

/-- The outer scan of R66: words `n - 1` down to 0, skipping words of zeros. -/
def scanWords (v : Buf) : Nat → Nat
  | 0 => 0
  | k + 1 => if v.extractLsb' (32 * k) 32 ≠ 0 then scanBits v (32 * k) 32 else scanWords v k

/-- `bitlen` as the document's scan computes it (R66): "a model may use either". -/
def bitlenScan (v : Buf) : Nat := scanWords v 6

/-- `shift_left(v, s)`, `shl_W` (R10, R67). -/
def shl (v : Buf) (s : Nat) : Buf := v <<< s

/-- A truth value in RES: `zext_32` (R10). -/
def truthWord (b : Bool) : Word := if b then 1 else 0

/-- `F[r]` of a register file (R11). -/
def readReg (f : Vector Elem 16) (r : Reg) : Elem := f[r.toNat]'r.isLt

/-- `F[r] <- v` on a register file (R11). -/
def writeReg (f : Vector Elem 16) (r : Reg) (v : Elem) : Vector Elem 16 := f.set r.toNat v r.isLt

/-- `P[r] = (F[r], F[r+1])` (R19). -/
def readPoint (f : Vector Elem 16) (r : Reg) : Point := ⟨readReg f r, readReg f (r + 1)⟩

/-- A set of staged writes applied to a register file (R29). -/
def writeRegs (regs : List (Reg × Elem)) (f : Vector Elem 16) : Vector Elem 16 :=
  regs.foldl (fun g rv => writeReg g rv.1 rv.2) f

end Sys2Proof.Machine
end

