-- ==== Sys2Proof/Machine/Operands.lean ====
section
/-! DEFINITION. The operand forms of a command (30_encoding.md R52 to R54): latched sources, and the staged result on a destination. -/

namespace Sys2Proof.Machine

/-- A field or scalar source, read from the values latched at accept (R12, R27): `fa`, `fb`, `fk`, and the `fd` that
CLRBIT reads. -/
def sourceF (s : State) (r : Reg) : Elem := readReg s.latchF r

/-- A point source from the latched values (R19, R27): `pa`, `pb`. -/
def sourceP (s : State) (r : Reg) : Point := readPoint s.latchF r

/-- The result `F[fd] <- v` (R12). -/
def stageF (fd : Reg) (v : Elem) : CmdResult := .writes [(fd, v)] none

/-- The result `P[pd] <- p`: both registers at the same commit (R19). -/
def stageP (pd : Reg) (p : Point) : CmdResult := .writes [(pd, p.x), (pd + 1, p.y)] none

/-- The result `RES <- w` (R12, R21). -/
def stageRes (w : Word) : CmdResult := .writes [] (some w)

/-- A value or the error that its computation raised, on a destination: `raise CmdError(code)` ends the command with
no result (R11). -/
def stageOr {α : Type} (stage : α → CmdResult) : Except CmdError α → CmdResult
  | .ok v => stage v
  | .error e => .error e

/-- The constant a selector of LDC names (R69); none for 6 and above, which is illegal (R54). -/
def romConstant (c : Curve) (sel : BitVec 8) : Except CmdError Elem :=
  match sel.toNat with
  | 0 => .ok 0
  | 1 => .ok 1
  | 2 => .ok c.b
  | 3 => .ok c.gx
  | 4 => .ok c.gy
  | 5 => .ok c.n
  | _ => .error .illegalCmd

end Sys2Proof.Machine
end

