-- ==== Sys2Proof/Machine/Ops.lean ====
section
/-! DEFINITION. The shared operations of the command lifecycle (10_state.md R27 to R29): accept, evaluate, commit; the completion of a command in error, which is this hardware's exception (60_exceptions.md R100); and reset (70 R113). -/

namespace Sys2Proof.Machine

/-- Accept (R27): latch the word and every field register, and set STATUS, in one step. -/
def accept (w : Word) (s : State) : State :=
  { s with latchWord := w, latchF := s.f, status := acceptedStatus }

/-- The content of the working buffers after a reset: unspecified, so free (R23, R31, U10; log entry 4). -/
def freeWork (instant : Nat) : WorkBuffers where
  acc := Config.workingBuffer instant 0
  t := Config.workingBuffer instant 1
  u := Config.workingBuffer instant 2
  v := Config.workingBuffer instant 3
  g := Config.workingBuffer instant 4
  z := Config.workingBuffer instant 5
  lam := Config.workingBuffer instant 6
  rPoint := ⟨Config.workingBuffer instant 7, Config.workingBuffer instant 8⟩
  qPoint := ⟨Config.workingBuffer instant 9, Config.workingBuffer instant 10⟩
  mulCounter := (Config.workingBuffer instant 11).setWidth 9
  invCounter := (Config.workingBuffer instant 12).setWidth 9
  scalarCounter := (Config.workingBuffer instant 13).setWidth 9

/-- The end of an evaluation (R28): its result `r` is staged, and the working buffers hold `w`, what its assignments left
(R13). -/
def evaluated (r : CmdResult) (w : WorkBuffers) (s : State) : State :=
  { s with staged := r, work := w, freeIdx := s.freeIdx + 1 }

/-- The commit of staged writes, all in one step (R29.1, R29.3). -/
def commitWrites (regs : List (Reg × Elem)) (res : Option Word) (s : State) : State :=
  { s with
    f := writeRegs regs s.f
    res := res.getD s.res
    status := committedStatus s.status none }

/-- The completion of a command in error (R29.2, R29.3, R100): no field register and not RES changes; STATUS gets ERR,
ECODE, DONE, and BUSY 0. Nothing is saved and control goes nowhere (R100). -/
def commitError (e : CmdError) (s : State) : State :=
  { s with status := committedStatus s.status (some e) }

/-- Commit (R29): the staged result takes effect in one step. What the staged result and the latches hold afterwards the
spec does not say: the model keeps them until the next evaluation, accept or reset (DESIGN CHOICE, log entry 16). -/
def commit (s : State) : State :=
  match s.staged with
  | .writes regs res => commitWrites regs res s
  | .error e => commitError e s

/-- A command whose evaluation gave the result `r` and left `w` in the working buffers ends: the result is staged and
committed. Between the two nothing is observable (R28, R30; log entry 3). -/
def complete (s : State) (r : CmdResult) (w : WorkBuffers) : Host.Outcome State Fault Refusal :=
  .next (commit (evaluated r w s))

/-- The end of a command with point operands: an odd point field makes the whole command illegal (R53), and nothing is
evaluated. The decoder never lets one through; the check keeps a command term's meaning that of its word (log entry 9). -/
def completeOnPoints (rs : List Reg) (s : State) (r : CmdResult) (w : WorkBuffers) :
    Host.Outcome State Fault Refusal :=
  if rs.any oddReg then complete s (.error .illegalCmd) s.work else complete s r w

/-- What the host gets for a transaction that `rst` cuts short: data and resp are unspecified (R113, U5; log entry 6). -/
def cutShort (instant : Nat) (t : Transaction) : Response :=
  let resp := if Config.resetRespOk instant then .ok else .error
  match t with
  | .read _ _ => .read (Config.resetReadData instant) resp
  | .write _ _ _ => .write resp

/-- Reset (R113, R31), in every state: the reset values, ROM unchanged, a command in progress abandoned. The working
buffers are unspecified. The events still to come at the port are not the block's and stay. -/
def reset (inFlight : Option Transaction) (s : State) : State :=
  { State.reset with
    rom := s.rom
    work := freeWork s.freeIdx
    hostResp := inFlight.map (cutShort s.freeIdx)
    port := s.port
    freeIdx := s.freeIdx + 1 }

end Sys2Proof.Machine
end

