-- ==== Sys2Proof/Machine/Gf.lean ====
section
/-! DEFINITION. The field functions of 41_field.md R75 to R80, over the reduction polynomial `f` of ROM. -/

namespace Sys2Proof.Machine

/-- `gf_add(x, y) = x XOR y` (R75). -/
def gfAdd (x y : Elem) : Elem := x ^^^ y

/-- `gf_inc(x) = x XOR 1` (R80). -/
def gfInc (x : Elem) : Elem := x ^^^ 1

/-- The working buffers of the multiply loop (R76). -/
structure MulBuf where
  acc : Buf
  t : Buf
deriving DecidableEq, Repr

/-- The start of `gf_mul` (R76): `acc` is `x` if bit 0 of `y` is set, else 0; `t` is `x`. -/
def mulStart (x y : Elem) : MulBuf :=
  ⟨if y.getLsbD 0 then toBuf x else 0, toBuf x⟩

/-- Doubling `t` and reducing it when its polynomial degree reached `m = 163` (R76). -/
def mulDouble (f t : Buf) : Buf :=
  if (shl t 1).getLsbD 163 then shl t 1 ^^^ f else shl t 1

/-- Iteration `i` of the multiply loop (R76). -/
def mulStep (f : Buf) (y : Elem) (i : Nat) (b : MulBuf) : MulBuf :=
  let t := mulDouble f b.t
  ⟨if y.getLsbD i then b.acc ^^^ t else b.acc, t⟩

/-- The buffers after the iterations `i = 1 .. n` (R76). -/
def mulLoop (f : Buf) (x y : Elem) : Nat → MulBuf
  | 0 => mulStart x y
  | n + 1 => mulStep f y (n + 1) (mulLoop f x y n)

/-- `gf_mul(x, y)`: 162 iterations, the result is `acc` (R76). The result is written to a 163-bit element; R77 shows
that this loses nothing. -/
def gfMul (f : Buf) (x y : Elem) : Elem := toElem (mulLoop f x y 162).acc

/-- The working buffers of the inversion loop (R78): the pairs `(u, g)` and `(v, z)`, and the last value of `i`, none
before the first iteration. -/
structure InvBuf where
  u : Buf
  g : Buf
  v : Buf
  z : Buf
  shift : Option Nat
deriving DecidableEq, Repr

/-- The corrected start of `gf_inv`: `(u, g) = (x, 1)`, `(v, z) = (f, 0)` (R78, 90_conflicts.md C1). -/
def invStart (f : Buf) (x : Elem) : InvBuf := ⟨toBuf x, 1, f, 0, none⟩

/-- `swap (u, g) with (v, z)` (R78). -/
def invSwap (b : InvBuf) : InvBuf := { b with u := b.v, g := b.z, v := b.u, z := b.g }

/-- One iteration of the inversion loop (R78). -/
def invStep (b : InvBuf) : InvBuf :=
  let i : Int := (bitlen b.u : Int) - (bitlen b.v : Int)
  let c := if i < 0 then invSwap b else b
  { c with
    u := c.u ^^^ shl c.v i.natAbs
    g := c.g ^^^ shl c.z i.natAbs
    shift := some i.natAbs }

/-- `while u != 1` of R78, for at most `n` iterations. -/
def invLoop : Nat → InvBuf → InvBuf
  | 0, b => b
  | n + 1, b => if b.u = 1 then b else invLoop n (invStep b)

/-- The inverse that R78 computes for a nonzero `x`. The loop "runs at most 324 times" (R79); were `u` not 1 then,
which needs an `f` that is not irreducible, the value is free (log entry 7). -/
def gfInvert (f : Buf) (x : Elem) : Elem :=
  let b := invLoop 324 (invStart f x)
  if b.u = 1 then toElem b.g else Config.inverterOverrun f x

/-- `gf_inv(x)`: `CmdError(2)` for zero, else the inverse (R78). -/
def gfInv (f : Buf) (x : Elem) : Except CmdError Elem :=
  if x = 0 then .error .zeroInverse else .ok (gfInvert f x)

end Sys2Proof.Machine
end

