-- ==== Sys2Proof/Machine/CurveOps.lean ====
section
/-! DEFINITION. The point functions of 42_point.md R85 to R88 and the double-and-add of 43_scalar.md R95, with `a = 1`. -/

namespace Sys2Proof.Machine

/-- The identity encoding `(0, 0)` (R85). -/
def identity : Point := ⟨0, 0⟩

/-- `is_identity(P)` (R85). -/
def isIdentity (p : Point) : Bool := p.x == 0 && p.y == 0

/-- `on_curve(P)` (R86): the identity, or `y² + xy = x³ + x² + b`. -/
def onCurve (c : Curve) (p : Point) : Bool :=
  if p.x = 0 ∧ p.y = 0 then true
  else
    let lhs := gfAdd (gfMul c.f p.y p.y) (gfMul c.f p.x p.y)
    let x2 := gfMul c.f p.x p.x
    let rhs := gfAdd (gfMul c.f x2 p.x) c.b
    lhs == gfAdd rhs x2

/-- `lam` of `pt_double` (R87), for a nonzero `x`. -/
def doubleLam (c : Curve) (p : Point) : Elem := gfAdd p.x (gfMul c.f p.y (gfInvert c.f p.x))

/-- `x3` of `pt_double` (R87), from its `lam`. -/
def doubleX (c : Curve) (lam : Elem) : Elem := gfInc (gfAdd (gfMul c.f lam lam) lam)

/-- `pt_double(P)` (R87). The inverse is taken of a nonzero `x` only, so no error arises (R89). -/
def ptDouble (c : Curve) (p : Point) : Point :=
  if p.x = 0 then identity
  else
    let lam := doubleLam c p
    let x3 := doubleX c lam
    let y3 := gfAdd (gfMul c.f p.x p.x) (gfMul c.f (gfInc lam) x3)
    ⟨x3, y3⟩

/-- `lam` of `pt_add` (R88), for `xP != xQ`. -/
def addLam (c : Curve) (p q : Point) : Elem := gfMul c.f (gfAdd p.y q.y) (gfInvert c.f (gfAdd p.x q.x))

/-- `x3` of `pt_add` (R88), from its `lam`. -/
def addX (c : Curve) (p q : Point) (lam : Elem) : Elem :=
  gfInc (gfAdd (gfAdd (gfAdd (gfMul c.f lam lam) lam) p.x) q.x)

/-- The general case of `pt_add` (R88), for `xP != xQ`, so that the inverse is taken of a nonzero sum (R89). -/
def ptAddGeneral (c : Curve) (p q : Point) : Point :=
  let lam := addLam c p q
  let x3 := addX c p q lam
  let y3 := gfAdd (gfAdd (gfMul c.f lam (gfAdd p.x x3)) x3) p.y
  ⟨x3, y3⟩

/-- `pt_add(P, Q)`, its tests in the document's order (R88). -/
def ptAdd (c : Curve) (p q : Point) : Point :=
  if q.x = 0 ∧ q.y = 0 then p
  else if p.x = 0 ∧ p.y = 0 then q
  else if p.x = q.x then
    if p.y = q.y then ptDouble c p else identity
  else ptAddGeneral c p q

/-- One iteration of the scalar loop: double, then add `P` if the scalar's bit is set (R95). -/
def scalarStep (c : Curve) (p : Point) (bit : Bool) (r : Point) : Point :=
  if bit then ptAdd c (ptDouble c r) p else ptDouble c r

/-- `for i = n - 1 downto 0` of R95, from the accumulator `r`. -/
def scalarLoop (c : Curve) (p : Point) (k : Elem) : Nat → Point → Point
  | 0, r => r
  | i + 1, r => scalarLoop c p k i (scalarStep c p (k.getLsbD i) r)

/-- `scalar_multiply(P, k)` (R95). -/
def scalarMultiply (c : Curve) (p : Point) (k : Elem) : Point :=
  scalarLoop c p k (bitlen (toBuf k)) identity

end Sys2Proof.Machine
end

