-- ==== Sys2Proof/Machine/Working.lean ====
section
/-! DEFINITION. What an evaluation leaves in the working buffers: the assignments of its pseudocode, in their order (00_scope.md R13, 10_state.md R23; log entry 18). `n` is the number of the evaluation, which picks its free values (log entry 4). -/

namespace Sys2Proof.Machine

/-- A point in the working buffers, each coordinate zero-extended to `W` bits (R10, R13). -/
def toWork (p : Point) : WorkPoint := ⟨toBuf p.x, toBuf p.y⟩

/-- What `gf_mul(x, y)` leaves (R76): `acc` and `t` after the last iteration. What the counter holds once the loop has
ended is free (DESIGN CHOICE, log entry 4). -/
def workMul (f : Buf) (n : Nat) (x y : Elem) (w : WorkBuffers) : WorkBuffers :=
  let b := mulLoop f x y 162
  { w with acc := b.acc, t := b.t, mulCounter := (Config.workingBuffer n 11).setWidth 9 }

/-- What `gf_inv(x)` leaves (R78): nothing assigned for zero; else both pairs at the end of the loop, and the last `i`.
Were the loop not over after 324 iterations, the pairs are free like the result (log entry 7). -/
def workInv (f : Buf) (n : Nat) (x : Elem) (w : WorkBuffers) : WorkBuffers :=
  if x = 0 then w
  else
    let b := invLoop 324 (invStart f x)
    let i := (b.shift.map (BitVec.ofNat 9)).getD w.invCounter
    if b.u = 1 then { w with u := b.u, g := b.g, v := b.v, z := b.z, invCounter := i }
    else
      { w with
        u := Config.workingBuffer n 2
        v := Config.workingBuffer n 3
        g := Config.workingBuffer n 4
        z := Config.workingBuffer n 5
        invCounter := (Config.workingBuffer n 12).setWidth 9 }

/-- `lam <- v` (R13). -/
def workLam (v : Elem) (w : WorkBuffers) : WorkBuffers := { w with lam := toBuf v }

/-- What `on_curve(P)` leaves (R86). -/
def workOnCurve (c : Curve) (n : Nat) (p : Point) (w : WorkBuffers) : WorkBuffers :=
  if p.x = 0 ∧ p.y = 0 then w
  else
    let x2 := gfMul c.f p.x p.x
    workMul c.f n x2 p.x (workMul c.f n p.x p.x (workMul c.f n p.x p.y (workMul c.f n p.y p.y w)))

/-- What the line of R87 for `y3` leaves: two products, in the order that the implementation takes them. -/
def workDoubleY (c : Curve) (n : Nat) (p : Point) (lam : Elem) (w : WorkBuffers) : WorkBuffers :=
  let square := workMul c.f n p.x p.x
  let product := workMul c.f n (gfInc lam) (doubleX c lam)
  if Config.doubleSquaresFirst then product (square w) else square (product w)

/-- What `pt_double(P)` leaves (R87). -/
def workDouble (c : Curve) (n : Nat) (p : Point) (w : WorkBuffers) : WorkBuffers :=
  if p.x = 0 then w
  else
    let lam := doubleLam c p
    let divided := workMul c.f n p.y (gfInvert c.f p.x) (workInv c.f n p.x w)
    workDoubleY c n p lam (workMul c.f n lam lam (workLam lam divided))

/-- What the general case of `pt_add(P, Q)` leaves (R88). -/
def workAddGeneral (c : Curve) (n : Nat) (p q : Point) (w : WorkBuffers) : WorkBuffers :=
  let lam := addLam c p q
  let inverse := gfInvert c.f (gfAdd p.x q.x)
  let divided := workMul c.f n (gfAdd p.y q.y) inverse (workInv c.f n (gfAdd p.x q.x) w)
  workMul c.f n lam (gfAdd p.x (addX c p q lam)) (workMul c.f n lam lam (workLam lam divided))

/-- What the body of `pt_add(P, Q)` leaves, its tests in the document's order (R88). -/
def workAddBody (c : Curve) (n : Nat) (p q : Point) (w : WorkBuffers) : WorkBuffers :=
  if q.x = 0 ∧ q.y = 0 then w
  else if p.x = 0 ∧ p.y = 0 then w
  else if p.x = q.x then
    if p.y = q.y then workDouble c n p w else w
  else workAddGeneral c n p q w

/-- What `pt_add(P, Q)` leaves (R88). R23 names the point `Q` and no pseudocode assigns it: its content is free. -/
def workAdd (c : Curve) (n : Nat) (p q : Point) (w : WorkBuffers) : WorkBuffers :=
  { workAddBody c n p q w with qPoint := ⟨Config.workingBuffer n 9, Config.workingBuffer n 10⟩ }

/-- One iteration of the scalar loop on the buffers: `R <- pt_double(R)`, and `R <- pt_add(R, P)` if the bit is set (R95). -/
def workScalarStep (c : Curve) (n : Nat) (p : Point) (bit : Bool) (r : Point) (w : WorkBuffers) : WorkBuffers :=
  let d := ptDouble c r
  let doubled := { workDouble c n r w with rPoint := toWork d }
  if bit then { workAdd c n d p doubled with rPoint := toWork (ptAdd c d p) } else doubled

/-- `for i = m - 1 downto 0` of R95 on the buffers, from the accumulator `r`. -/
def workScalarLoop (c : Curve) (n : Nat) (p : Point) (k : Elem) : Nat → Point → WorkBuffers → WorkBuffers
  | 0, _, w => w
  | i + 1, r, w =>
    workScalarLoop c n p k i (scalarStep c p (k.getLsbD i) r) (workScalarStep c n p (k.getLsbD i) r w)

/-- What `scalar_multiply(P, k)` leaves (R95): `R` starts as the identity. The counter is free afterwards: R95 does not say
what it holds once the loop has ended, nor, for `k = 0`, when the loop is not entered (DESIGN CHOICE, log entry 4). -/
def workScalar (c : Curve) (n : Nat) (p : Point) (k : Elem) (w : WorkBuffers) : WorkBuffers :=
  workScalarLoop c n p k (bitlen (toBuf k)) identity
    { w with rPoint := toWork identity, scalarCounter := (Config.workingBuffer n 13).setWidth 9 }

end Sys2Proof.Machine
end

