-- ==== Sys2Proof/Machine/FieldCmds.lean ====
section
/-! DEFINITION. The meanings of the field commands FADD, FINC, FMUL, FINV (41_field.md R81 to R84). -/

namespace Sys2Proof.Machine

/-- FADD (R81): `F[fd] <- gf_add(F[fa], F[fb])`. -/
def execFadd (fd fa fb : Reg) (s : State) : Host.Outcome State Fault Refusal :=
  complete s (stageF fd (gfAdd (sourceF s fa) (sourceF s fb))) s.work

/-- FINC (R82): `F[fd] <- gf_inc(F[fa])`. -/
def execFinc (fd fa : Reg) (s : State) : Host.Outcome State Fault Refusal :=
  complete s (stageF fd (gfInc (sourceF s fa))) s.work

/-- FMUL (R83): `F[fd] <- gf_mul(F[fa], F[fb])`. -/
def execFmul (fd fa fb : Reg) (s : State) : Host.Outcome State Fault Refusal :=
  complete s (stageF fd (gfMul s.rom.f (sourceF s fa) (sourceF s fb)))
    (workMul s.rom.f s.freeIdx (sourceF s fa) (sourceF s fb) s.work)

/-- FINV (R84): `F[fd] <- gf_inv(F[fa])`, or ZERO_INVERSE. -/
def execFinv (fd fa : Reg) (s : State) : Host.Outcome State Fault Refusal :=
  complete s (stageOr (stageF fd) (gfInv s.rom.f (sourceF s fa))) (workInv s.rom.f s.freeIdx (sourceF s fa) s.work)

end Sys2Proof.Machine
end

