-- ==== Sys2Proof/Machine/PointCmds.lean ====
section
/-! DEFINITION. The meanings of the point commands PISID, PONC, PDBL, PADD (42_point.md R91 to R94) and of PMUL (43_scalar.md R97). -/

namespace Sys2Proof.Machine

/-- PISID (R91): `RES <- is_identity(P[pa])`. -/
def execPisid (pa : Reg) (s : State) : Host.Outcome State Fault Refusal :=
  completeOnPoints [pa] s (stageRes (truthWord (isIdentity (sourceP s pa)))) s.work

/-- PONC (R92): `RES <- on_curve(P[pa])`. -/
def execPonc (pa : Reg) (s : State) : Host.Outcome State Fault Refusal :=
  completeOnPoints [pa] s (stageRes (truthWord (onCurve s.rom (sourceP s pa))))
    (workOnCurve s.rom s.freeIdx (sourceP s pa) s.work)

/-- PDBL (R93): `P[pd] <- pt_double(P[pa])`. The operand is not checked to be on the curve. -/
def execPdbl (pd pa : Reg) (s : State) : Host.Outcome State Fault Refusal :=
  completeOnPoints [pd, pa] s (stageP pd (ptDouble s.rom (sourceP s pa)))
    (workDouble s.rom s.freeIdx (sourceP s pa) s.work)

/-- PADD (R94): `P[pd] <- pt_add(P[pa], P[pb])`. The operands are not checked to be on the curve. -/
def execPadd (pd pa pb : Reg) (s : State) : Host.Outcome State Fault Refusal :=
  completeOnPoints [pd, pa, pb] s (stageP pd (ptAdd s.rom (sourceP s pa) (sourceP s pb)))
    (workAdd s.rom s.freeIdx (sourceP s pa) (sourceP s pb) s.work)

/-- PMUL (R97): `P[pd] <- scalar_multiply(P[pa], F[fk])`. The scalar is not reduced, the point not checked. -/
def execPmul (pd pa fk : Reg) (s : State) : Host.Outcome State Fault Refusal :=
  completeOnPoints [pd, pa] s (stageP pd (scalarMultiply s.rom (sourceP s pa) (sourceF s fk)))
    (workScalar s.rom s.freeIdx (sourceP s pa) (sourceF s fk) s.work)

end Sys2Proof.Machine
end

