-- ==== Sys2Proof/Machine/ReprCmds.lean ====
section
/-! DEFINITION. The meanings of the representation commands FMOV, LDC, GETBIT, CLRBIT, ISZERO, EQ, DEG (40_representation.md R68 to R74). Their pseudocode assigns no working buffer (R13). -/

namespace Sys2Proof.Machine

/-- FMOV (R68): `F[fd] <- F[fa]`. -/
def execFmov (fd fa : Reg) (s : State) : Host.Outcome State Fault Refusal :=
  complete s (stageF fd (sourceF s fa)) s.work

/-- LDC (R69): `F[fd]` gets the constant the selector names. A selector above 5 is illegal at decode (R54). -/
def execLdc (fd : Reg) (sel : BitVec 8) (s : State) : Host.Outcome State Fault Refusal :=
  complete s (stageOr (stageF fd) (romConstant s.rom sel)) s.work

/-- GETBIT (R70): `RES <- get_bit(F[fa], i)`, or BIT_INDEX. -/
def execGetbit (fa : Reg) (i : BitVec 8) (s : State) : Host.Outcome State Fault Refusal :=
  complete s (stageOr (fun b => stageRes (truthWord b)) (getBit (toBuf (sourceF s fa)) i.toNat)) s.work

/-- CLRBIT (R71): `F[fd] <- clear_bit(F[fd], i)[162:0]`, or BIT_INDEX. -/
def execClrbit (fd : Reg) (i : BitVec 8) (s : State) : Host.Outcome State Fault Refusal :=
  complete s (stageOr (fun v => stageF fd (toElem v)) (clearBit (toBuf (sourceF s fd)) i.toNat)) s.work

/-- ISZERO (R72): `RES <- is_zero(F[fa])`. -/
def execIszero (fa : Reg) (s : State) : Host.Outcome State Fault Refusal :=
  complete s (stageRes (truthWord (isZero (toBuf (sourceF s fa))))) s.work

/-- EQ (R73): `RES <- equal(F[fa], F[fb])`. -/
def execEq (fa fb : Reg) (s : State) : Host.Outcome State Fault Refusal :=
  complete s (stageRes (truthWord (equal (toBuf (sourceF s fa)) (toBuf (sourceF s fb))))) s.work

/-- DEG (R74): `RES <- bitlen(F[fa])`. -/
def execDeg (fa : Reg) (s : State) : Host.Outcome State Fault Refusal :=
  complete s (stageRes (BitVec.ofNat 32 (bitlen (toBuf (sourceF s fa))))) s.work

end Sys2Proof.Machine
end

