-- ==== Sys2Proof/Machine/Dispatch.lean ====
section
/-! DEFINITION. One arm per command: the meaning that runs it. -/

namespace Sys2Proof.Machine

/-- The evaluation and commit of a decoded command (R28, R29). -/
def exec (i : Instr) (s : State) : Host.Outcome State Fault Refusal :=
  match i with
  | .fmov fd fa => Sys2Proof.Machine.execFmov fd fa s
  | .ldc fd sel => Sys2Proof.Machine.execLdc fd sel s
  | .getbit fa k => Sys2Proof.Machine.execGetbit fa k s
  | .clrbit fd k => Sys2Proof.Machine.execClrbit fd k s
  | .iszero fa => Sys2Proof.Machine.execIszero fa s
  | .eq fa fb => Sys2Proof.Machine.execEq fa fb s
  | .deg fa => Sys2Proof.Machine.execDeg fa s
  | .fadd fd fa fb => Sys2Proof.Machine.execFadd fd fa fb s
  | .finc fd fa => Sys2Proof.Machine.execFinc fd fa s
  | .fmul fd fa fb => Sys2Proof.Machine.execFmul fd fa fb s
  | .finv fd fa => Sys2Proof.Machine.execFinv fd fa s
  | .pisid pa => Sys2Proof.Machine.execPisid pa s
  | .ponc pa => Sys2Proof.Machine.execPonc pa s
  | .pdbl pd pa => Sys2Proof.Machine.execPdbl pd pa s
  | .padd pd pa pb => Sys2Proof.Machine.execPadd pd pa pb s
  | .pmul pd pa fk => Sys2Proof.Machine.execPmul pd pa fk s

end Sys2Proof.Machine
end

