-- ==== Sys2Proof/Machine/Fetch.lean ====
section
/-! DEFINITION. How the CORE comes by its next command: the word latched at accept (10_state.md R23, R27), and the place a command word is put for the next turn of the CORE. -/

namespace Sys2Proof.Machine

/-- The command in progress, decoded (R28). -/
def latchedCommand (s : State) : Except IllegalCause Instr := decode s.latchWord

/-- The completion of a word that decodes as Illegal: `CmdError(1)`, with nothing evaluated (R28, R58). -/
def completeIllegal (s : State) : Host.Outcome State Fault Refusal := complete s (.error .illegalCmd) s.work

/-- The state in which the word `w` has just been accepted, by a CMD write (R27), and the CORE moves next. -/
def acceptForNextTurn (w : Word) (s : State) : State :=
  { accept w s with port := .core :: s.port }

end Sys2Proof.Machine
end

