-- ==== Sys2Proof/Machine/Window.lean ====
section
/-! DEFINITION. The host register window: its map, its reads and writes, alignment and byte order (20_memory.md R33 to R44, R124). -/

namespace Sys2Proof.Machine

/-- What stands at an aligned offset of the window (R35). -/
inductive Location where
  /-- Word `w` (0 to 5) of field register `r`. -/
  | fieldWord (r : Reg) (w : Nat)
  | cmd
  | status
  | res
  /-- Reads 0, ignores writes. -/
  | reserved
deriving DecidableEq, Repr

/-- The window map (R35): the field registers' slots of 0x20 bytes up to 0x1FF, with words 6 and 7 reserved, then
CMD, STATUS and RES, and all else reserved. -/
def locate (off : Offset) : Location :=
  if off.toNat < 0x200 then
    if off.toNat % 0x20 / 4 < 6 then .fieldWord (BitVec.ofNat 4 (off.toNat / 0x20)) (off.toNat % 0x20 / 4)
    else .reserved
  else if off = 0x200 then .cmd
  else if off = 0x204 then .status
  else if off = 0x208 then .res
  else .reserved

/-- The offset of word `w` of `F[r]`: `0x20·r + 4·w` (R35). -/
def fieldOffset (r : Reg) (w : Nat) : Offset := BitVec.ofNat 12 (0x20 * r.toNat + 4 * w)

/-- The bus address of an offset: `BASE + off` (R124). -/
def busAddress (off : Offset) : Nat := Config.base + off.toNat

/-- The offset that a bus address selects; an address outside the window is not decoded by the block (R33). -/
def windowOffset (addr : Nat) : Option Offset :=
  if Config.base ≤ addr ∧ addr < Config.base + 4096 then some (BitVec.ofNat 12 (addr - Config.base)) else none

/-- Word `w` of a field register: `zext_32(F[r][min(32w+31, 162) : 32w])` (R36, R38). -/
def getWord (v : Elem) (w : Nat) : Word := v.extractLsb' (32 * w) 32

/-- The bits of word `w` in a field register; for word 5 only the bits 162:160 exist (R36). -/
def wordMask (w : Nat) : Elem := (0xFFFFFFFF : Elem) <<< (32 * w)

/-- A field register with its word `w` replaced by `d`; of word 5 only `d[2:0]` is kept (R37). -/
def putWord (v : Elem) (w : Nat) (d : Word) : Elem :=
  (v &&& ~~~(wordMask w)) ||| (d.setWidth 163 <<< (32 * w))

/-- Byte lane `k` (0 to 3) of a data word: bits `8k+7 : 8k` (R44). -/
def byteLane (d : Word) (k : Nat) : BitVec 8 := d.extractLsb' (8 * k) 8

/-- The data word on four byte lanes, lane 0 first (R44). -/
def wordOfLanes (b0 b1 b2 b3 : BitVec 8) : Word := b3 ++ b2 ++ b1 ++ b0

/-- An access of 4 bytes at a multiple of 4 (R43). -/
def legalAccess (off : Offset) (size : Nat) : Bool := size == 4 && off.toNat % 4 == 0

/-- The data of a legal read (R38 to R41). While BUSY, F and RES still hold the values from before the accept (R30). -/
def readData (s : State) (off : Offset) : Word :=
  match locate off with
  | .fieldWord r w => getWord (readReg s.f r) w
  | .cmd => 0
  | .status => statusWord s.status
  | .res => s.res
  | .reserved => 0

/-- A write dropped while BUSY: only WIGN changes (R42). -/
def dropWrite (s : State) : State := { s with status := droppedStatus s.status }

/-- `F[r]` word `w` `<- d` (R37). -/
def writeFieldWord (r : Reg) (w : Nat) (d : Word) (s : State) : State :=
  { s with f := writeReg s.f r (putWord (readReg s.f r) w d) }

/-- The effect of a legal write (R37, R39 to R42). -/
def writeData (off : Offset) (d : Word) (s : State) : State :=
  match locate off with
  | .fieldWord r w => if s.status.busy then dropWrite s else writeFieldWord r w d s
  | .cmd => if s.status.busy then dropWrite s else accept d s
  | .status => s
  | .res => s
  | .reserved => s

/-- The block's answer on its response port (R34). -/
def respond (r : Response) (s : State) : State := { s with hostResp := some r }

/-- One host transaction (R34). An access of a wrong size or alignment gets resp ERROR, a read data 0, and no other
state changes (R43, R104). -/
def transact (t : Transaction) (s : State) : State :=
  match t with
  | .read off size =>
    if legalAccess off size then respond (.read (readData s off) .ok) s else respond (.read 0 .error) s
  | .write off size d =>
    if legalAccess off size then respond (.write .ok) (writeData off d s) else respond (.write .error) s

end Sys2Proof.Machine
end

