-- ==== Sys2Proof/Machine/Step.lean ====
section
/-! DEFINITION. One step of the block: a host transaction, a turn of the CORE, or reset (10_state.md R28, 20_memory.md R47, 70 R113). -/

namespace Sys2Proof.Machine

/-- The command in progress ends: an Illegal word completes with ECODE 1, any other runs its meaning (R28). -/
def runCommand (s : State) : Host.Outcome State Fault Refusal :=
  match latchedCommand s with
  | .error _ => completeIllegal s
  | .ok i => exec i s

/-- A turn of the CORE: with BUSY = 1 the command in progress commits; an idle block does nothing (R112). -/
def coreTurn (s : State) : Host.Outcome State Fault Refusal :=
  if s.status.busy then runCommand s else .next s

/-- One step: the next event at the port is taken; when nothing is left to come, the CORE moves (log entry 2). -/
def step (s : State) : Host.Outcome State Fault Refusal :=
  match s.port with
  | [] => coreTurn s
  | .core :: rest => coreTurn { s with port := rest }
  | .bus t :: rest => .next (transact t { s with port := rest })
  | .rst inFlight :: rest => .next (reset inFlight { s with port := rest })

/-- `s` with the command word of the low `nbits` bits of `w` just accepted and the CORE to move next, so that the next
step evaluates and commits it. It stands for the host's CMD write (log entry 2). -/
def State.withFetchWord (s : State) (nbits w : Nat) : State :=
  acceptForNextTurn (BitVec.ofNat 32 (w % 2 ^ nbits)) s

end Sys2Proof.Machine
end

