-- ==== Sys2Proof/Machine/Assembler.lean ====
section
/-! DEFINITION. The assembler syntax and the pseudo-instructions (30_encoding.md R61, R62): from a line of text to command words. -/

namespace Sys2Proof.Machine

/-- The pseudo-instructions of R62. -/
inductive Pseudo where
  | FZERO | FONE | FSQR | FSUB | FDIV | LDG | PNEG
deriving DecidableEq, Repr

/-- The first word of a line: a mnemonic of R55 or a pseudo-instruction of R62. -/
inductive AsmName where
  | cmd (mn : Mnemonic)
  | pseudo (p : Pseudo)
deriving DecidableEq, Repr

/-- An operand as R61 writes it: `F0` to `F15`, `P0` to `P14`, a number, or a constant selector's name. -/
inductive AsmOperand where
  | f (r : Reg)
  | p (r : Reg)
  | imm (n : Nat)
  | sel (s : BitVec 8)
deriving DecidableEq, Repr

/-- The names a line may begin with (R61, R62). -/
def asmNames : List (List Char × AsmName) := [
  (['F', 'M', 'O', 'V'], .cmd .FMOV), (['L', 'D', 'C'], .cmd .LDC),
  (['G', 'E', 'T', 'B', 'I', 'T'], .cmd .GETBIT), (['C', 'L', 'R', 'B', 'I', 'T'], .cmd .CLRBIT),
  (['I', 'S', 'Z', 'E', 'R', 'O'], .cmd .ISZERO), (['E', 'Q'], .cmd .EQ), (['D', 'E', 'G'], .cmd .DEG),
  (['F', 'A', 'D', 'D'], .cmd .FADD), (['F', 'I', 'N', 'C'], .cmd .FINC),
  (['F', 'M', 'U', 'L'], .cmd .FMUL), (['F', 'I', 'N', 'V'], .cmd .FINV),
  (['P', 'I', 'S', 'I', 'D'], .cmd .PISID), (['P', 'O', 'N', 'C'], .cmd .PONC),
  (['P', 'D', 'B', 'L'], .cmd .PDBL), (['P', 'A', 'D', 'D'], .cmd .PADD), (['P', 'M', 'U', 'L'], .cmd .PMUL),
  (['F', 'Z', 'E', 'R', 'O'], .pseudo .FZERO), (['F', 'O', 'N', 'E'], .pseudo .FONE),
  (['F', 'S', 'Q', 'R'], .pseudo .FSQR), (['F', 'S', 'U', 'B'], .pseudo .FSUB),
  (['F', 'D', 'I', 'V'], .pseudo .FDIV), (['L', 'D', 'G'], .pseudo .LDG), (['P', 'N', 'E', 'G'], .pseudo .PNEG)]

/-- The names of the constant selectors (R61). -/
def selectorNames : List (List Char × BitVec 8) := [
  (['Z', 'E', 'R', 'O'], 0), (['O', 'N', 'E'], 1), (['B'], 2), (['G', 'X'], 3), (['G', 'Y'], 4), (['N'], 5)]

/-- The value of a digit, `0` to `9`, `A` to `F` or `a` to `f`. -/
def digitValue (c : Char) : Nat :=
  if '0' ≤ c ∧ c ≤ '9' then c.toNat - '0'.toNat
  else if 'A' ≤ c ∧ c ≤ 'F' then c.toNat - 'A'.toNat + 10
  else if 'a' ≤ c ∧ c ≤ 'f' then c.toNat - 'a'.toNat + 10
  else 16

/-- A number in the given base: at least one digit, every digit below the base. -/
def parseDigits (base : Nat) (cs : List Char) : Option Nat :=
  if cs ≠ [] ∧ cs.all (fun c => digitValue c < base) then
    some (cs.foldl (fun n c => base * n + digitValue c) 0)
  else none

/-- An immediate: a decimal number or a `0x` hexadecimal number (R61). -/
def parseNumber : List Char → Option Nat
  | '0' :: 'x' :: cs => parseDigits 16 cs
  | cs => parseDigits 10 cs

/-- A register number 0 to 15, in decimal without leading zeros (R61). -/
def parseIndex (cs : List Char) : Option Reg :=
  match cs with
  | '0' :: _ :: _ => none
  | _ => (parseDigits 10 cs).bind fun n => if n < 16 then some (BitVec.ofNat 4 n) else none

/-- The operand other than a selector's name: a register or a number (R61). -/
def parseRegOrNumber : List Char → Option AsmOperand
  | 'F' :: cs => (parseIndex cs).map .f
  | 'P' :: cs => (parseIndex cs).map .p
  | cs => (parseNumber cs).map .imm

/-- One operand (R61). -/
def parseOperand (cs : List Char) : Option AsmOperand :=
  match selectorNames.lookup cs with
  | some s => some (.sel s)
  | none => parseRegOrNumber cs

/-- White space between the words of a line. -/
def isBlank (c : Char) : Bool := c == ' ' || c == '\t'

/-- A text without blanks at either end. -/
def trim (cs : List Char) : List Char :=
  ((cs.dropWhile isBlank).reverse.dropWhile isBlank).reverse

/-- The texts between commas. -/
def splitCommas : List Char → List (List Char)
  | [] => [[]]
  | c :: cs =>
    if c = ',' then [] :: splitCommas cs
    else
      match splitCommas cs with
      | [] => [[c]]
      | w :: ws => (c :: w) :: ws

/-- The selector an LDC operand stands for: a number up to 5, or a name (R54, R61). R54 makes the word of a larger number
Illegal at decode, and R61 does not say what an assembler does with it: that it has no form is the model's DESIGN CHOICE
(log entry 15). -/
def selectorOf : AsmOperand → Option (BitVec 8)
  | .imm n => if n ≤ 5 then some (BitVec.ofNat 8 n) else none
  | .sel s => if validSelector s then some s else none
  | .f _ => none
  | .p _ => none

/-- The bit index an operand stands for, 0 to 255 (R54). -/
def bitIndexOf : AsmOperand → Option (BitVec 8)
  | .imm n => if n < 256 then some (BitVec.ofNat 8 n) else none
  | .sel _ => none
  | .f _ => none
  | .p _ => none

/-- The command a mnemonic and its operands stand for, in the forms of R61: the destination first, then the sources in
RA then RB order. -/
def command (mn : Mnemonic) (ops : List AsmOperand) : Option Instr :=
  match mn, ops with
  | .FMOV, [.f d, .f a] => some (.fmov d a)
  | .LDC, [.f d, o] => (selectorOf o).map (.ldc d)
  | .GETBIT, [.f a, o] => (bitIndexOf o).map (.getbit a)
  | .CLRBIT, [.f d, o] => (bitIndexOf o).map (.clrbit d)
  | .ISZERO, [.f a] => some (.iszero a)
  | .EQ, [.f a, .f b] => some (.eq a b)
  | .DEG, [.f a] => some (.deg a)
  | .FADD, [.f d, .f a, .f b] => some (.fadd d a b)
  | .FINC, [.f d, .f a] => some (.finc d a)
  | .FMUL, [.f d, .f a, .f b] => some (.fmul d a b)
  | .FINV, [.f d, .f a] => some (.finv d a)
  | .PISID, [.p a] => some (.pisid a)
  | .PONC, [.p a] => some (.ponc a)
  | .PDBL, [.p d, .p a] => some (.pdbl d a)
  | .PADD, [.p d, .p a, .p b] => some (.padd d a b)
  | .PMUL, [.p d, .p a, .f k] => some (.pmul d a k)
  | _, _ => none

/-- The expansion of a pseudo-instruction (R62). -/
def expansion (p : Pseudo) (ops : List AsmOperand) : Option (List Instr) :=
  match p, ops with
  | .FZERO, [.f d] => some [.ldc d 0]
  | .FONE, [.f d] => some [.ldc d 1]
  | .FSQR, [.f d, .f a] => some [.fmul d a a]
  | .FSUB, [.f d, .f a, .f b] => some [.fadd d a b]
  | .FDIV, [.f d, .f a, .f b] => if d ≠ a then some [.finv d b, .fmul d a d] else none
  | .LDG, [.p d] => some [.ldc d 3, .ldc (d + 1) 4]
  | .PNEG, [.p d, .p a] => if d ≠ a then some [.fmov d a, .fadd (d + 1) a (a + 1)] else none
  | _, _ => none

/-- A point register is named by its even number (R61). -/
def operandOk : AsmOperand → Bool
  | .p r => evenReg r
  | .f _ => true
  | .imm _ => true
  | .sel _ => true

/-- The commands of a name and its operands. -/
def assemble (name : AsmName) (ops : List AsmOperand) : Option (List Instr) :=
  if ops.all operandOk then
    match name with
    | .cmd mn => (command mn ops).map fun i => [i]
    | .pseudo p => expansion p ops
  else none

/-- The operands of a line: none, or texts between commas, each an operand. -/
def parseOperands (cs : List Char) : Option (List AsmOperand) :=
  if trim cs = [] then some [] else (splitCommas cs).mapM fun t => parseOperand (trim t)

/-- The commands of one line of assembler text (R61): `none` where the line is not of the syntax; a line that is blank
or a comment only has no command. -/
def assembleLine (line : List Char) : Option (List Instr) :=
  let text := trim (line.takeWhile (· ≠ '#'))
  if text = [] then some []
  else
    match asmNames.lookup (text.takeWhile (fun c => !isBlank c)) with
    | none => none
    | some name => (parseOperands (text.dropWhile (fun c => !isBlank c))).bind (assemble name)

/-- The command words of one line of assembler text (R61). -/
def assembleWords (line : List Char) : Option (List Word) := (assembleLine line).map (List.map encode)

end Sys2Proof.Machine
end

