-- ==== Sys2Proof/Safety.lean ====
section
/-! DEFINITION. The terms in which claims speak: runs, legal states, what a command may change, the opcode table's masks, and values as polynomials. -/

namespace Sys2Proof.Safety

open Sys2Proof.Machine

/-- `k` steps of the block, stopping where a step does not answer a next state. -/
def run : Nat → State → Host.Outcome State Fault Refusal
  | 0, s => .next s
  | k + 1, s =>
    match step s with
    | .next t => run k t
    | .fault r => .fault r
    | .refused r => .refused r

/-- The legal values of STATUS (R25): BUSY and DONE never together, and ERR exactly when ECODE is not 0. -/
def StatusLegal (st : Status) : Prop :=
  ¬(st.busy = true ∧ st.done = true) ∧ (st.err = true ↔ st.ecode ≠ none)

/-- What holds of every state between two steps. -/
structure MachineInv (s : State) : Prop where
  /-- R25. -/
  statusLegal : StatusLegal s.status
  /-- R27: accept clears ERR and ECODE, and only a commit sets them. -/
  busyHasNoError : s.status.busy = true → s.status.err = false ∧ s.status.ecode = none
  /-- R27, R30: while a command runs, the registers hold what was latched at its accept. -/
  latchedIsCurrent : s.status.busy = true → s.latchF = s.f
  /-- R21: RES is a truth value or a count of 0 to 163. -/
  resBound : s.res.toNat ≤ 163

/-- What no command touches (R16): ROM, the latches, the host's response port and the events still to come. -/
def CommandFrame (s t : State) : Prop :=
  t.rom = s.rom ∧ t.latchWord = s.latchWord ∧ t.latchF = s.latchF ∧ t.hostResp = s.hostResp ∧ t.port = s.port

/-- The registers of `s` as they are. -/
def kept (s : State) : Reg → Elem := fun r => readReg s.f r

/-- The registers of `s` with `F[fd]` replaced by `v`. -/
def withReg (s : State) (fd : Reg) (v : Elem) : Reg → Elem :=
  fun r => if r = fd then v else readReg s.f r

/-- The registers of `s` with `P[pd]` replaced by `p` (R19). -/
def withPoint (s : State) (pd : Reg) (p : Point) : Reg → Elem :=
  fun r => if r = pd then p.x else if r = pd + 1 then p.y else readReg s.f r

/-- The command `i` completes without error: a next state with these registers and this RES, DONE = 1, BUSY, ERR and
ECODE 0, WIGN kept (R29), and nothing else changed but the CORE's staged result and working buffers. -/
def Completes (i : Instr) (s : State) (regs : Reg → Elem) (res : Word) : Prop :=
  ∃ t, exec i s = .next t ∧ (∀ r, readReg t.f r = regs r) ∧ t.res = res ∧
    t.status = ⟨false, true, false, s.status.wign, none⟩ ∧ CommandFrame s t

/-- The command `i` ends in the error `e`: a next state with every register and RES as before, DONE = 1, ERR = 1 and
the code (R29, R100). -/
def Fails (i : Instr) (s : State) (e : CmdError) : Prop :=
  ∃ t, exec i s = .next t ∧ t.f = s.f ∧ t.res = s.res ∧
    t.status = ⟨false, true, true, s.status.wign, some e⟩ ∧ CommandFrame s t

/-- `w'` is `w` after `gf_mul(x, y)`: `acc` and `t` as the last iteration leaves them (R76), and any counter. -/
def LeavesProduct (f : Buf) (x y : Elem) (w w' : WorkBuffers) : Prop :=
  ∃ i, w' = { w with acc := (mulLoop f x y 162).acc, t := (mulLoop f x y 162).t, mulCounter := i }

/-- `w'` is `w` after `gf_inv(x)` (R78): as before for zero; else only the two pairs and the counter are written, and where
the loop ends they hold its last values. -/
def LeavesInverse (f : Buf) (x : Elem) (w w' : WorkBuffers) : Prop :=
  (x = 0 → w' = w) ∧
  (x ≠ 0 → ∃ u g v z i, w' = { w with u := u, g := g, v := v, z := z, invCounter := i } ∧
    ∀ b, b = invLoop 324 (invStart f x) → b.u = 1 →
      u = 1 ∧ g = b.g ∧ v = b.v ∧ z = b.z ∧ i = (b.shift.map (BitVec.ofNat 9)).getD w.invCounter)

/-- `w'` is `w` after `pt_double(P)` (R87): as before for `x = 0`; else the inversion of `x`, `lam`, and one of the two
products of the last line, whichever is taken last. -/
def LeavesDouble (c : Curve) (p : Point) (w w' : WorkBuffers) : Prop :=
  (p.x = 0 → w' = w) ∧
  ∀ v lam, gfInv c.f p.x = .ok v → lam = p.x ^^^ gfMul c.f p.y v →
    ∃ w₁, LeavesInverse c.f p.x w w₁ ∧
      (LeavesProduct c.f p.x p.x { w₁ with lam := lam.setWidth 192 } w' ∨
        LeavesProduct c.f (lam ^^^ 1) (ptDouble c p).x { w₁ with lam := lam.setWidth 192 } w')

/-- `w'` is `w` after `pt_add(P, Q)` (R88), but for the point `Q`, which is free: as before where an operand is the identity
or the two are inverses of each other; what the doubling leaves where they are equal; else the inversion of `xP + xQ`,
`lam`, and the product for `y3`. -/
def LeavesSum (c : Curve) (p q : Point) (w w' : WorkBuffers) : Prop :=
  ∃ w₁, w' = { w₁ with qPoint := w'.qPoint } ∧
    (p = ⟨0, 0⟩ ∨ q = ⟨0, 0⟩ ∨ (p.x = q.x ∧ p.y ≠ q.y) → w₁ = w) ∧
    (p ≠ ⟨0, 0⟩ → p = q → LeavesDouble c p w w₁) ∧
    ∀ v lam, p ≠ ⟨0, 0⟩ → q ≠ ⟨0, 0⟩ → gfInv c.f (p.x ^^^ q.x) = .ok v → lam = gfMul c.f (p.y ^^^ q.y) v →
      ∃ w₂, LeavesInverse c.f (p.x ^^^ q.x) w w₂ ∧
        LeavesProduct c.f lam (p.x ^^^ (ptAdd c p q).x) { w₂ with lam := lam.setWidth 192 } w₁

/-- `w'` is `w` with `R <- r` (R13, R95). -/
def LeavesR (r : Point) (w w' : WorkBuffers) : Prop :=
  w' = { w with rPoint := ⟨r.x.setWidth 192, r.y.setWidth 192⟩ }

/-- The operand `F[r]` latched at accept (R27). -/
def latchedF (s : State) (r : Reg) : Elem := readReg s.latchF r

/-- The operand `P[r]` latched at accept (R19, R27). -/
def latchedP (s : State) (r : Reg) : Point := ⟨latchedF s r, latchedF s (r + 1)⟩

/-- Constants such as R3 and R24 require: `bitlen(f) = 164`, and `b` nonzero. -/
def RomOk (c : Curve) : Prop := bitlen c.f = 164 ∧ c.b ≠ 0

/-- The mnemonic of a command (R55). -/
def mnemonicOf : Instr → Mnemonic
  | .fmov _ _ => .FMOV
  | .ldc _ _ => .LDC
  | .getbit _ _ => .GETBIT
  | .clrbit _ _ => .CLRBIT
  | .iszero _ => .ISZERO
  | .eq _ _ => .EQ
  | .deg _ => .DEG
  | .fadd _ _ _ => .FADD
  | .finc _ _ => .FINC
  | .fmul _ _ _ => .FMUL
  | .finv _ _ => .FINV
  | .pisid _ => .PISID
  | .ponc _ => .PONC
  | .pdbl _ _ => .PDBL
  | .padd _ _ _ => .PADD
  | .pmul _ _ _ => .PMUL

/-- The registers a command may write (R18, R19). -/
def destinations : Instr → List Reg
  | .fmov fd _ => [fd]
  | .ldc fd _ => [fd]
  | .getbit _ _ => []
  | .clrbit fd _ => [fd]
  | .iszero _ => []
  | .eq _ _ => []
  | .deg _ => []
  | .fadd fd _ _ => [fd]
  | .finc fd _ => [fd]
  | .fmul fd _ _ => [fd]
  | .finv fd _ => [fd]
  | .pisid _ => []
  | .ponc _ => []
  | .pdbl pd _ => [pd, pd + 1]
  | .padd pd _ _ => [pd, pd + 1]
  | .pmul pd _ _ => [pd, pd + 1]

/-- The query commands, which alone write RES (R21). -/
def queries : List Mnemonic := [.GETBIT, .ISZERO, .EQ, .DEG, .PISID, .PONC]

/-- A row of spec/opcode_table.json: a word `w` is this command when `w AND mask = pattern`. -/
structure TableRow where
  mnemonic : Mnemonic
  pattern : Word
  mask : Word

/-- spec/opcode_table.json, row by row. -/
def opcodeTable : List TableRow := [
  ⟨.FMOV, 0x00000001, 0xFFFF00FF⟩,
  ⟨.LDC, 0x00000002, 0xF00FF0FF⟩,
  ⟨.GETBIT, 0x00000003, 0xF00F0FFF⟩,
  ⟨.CLRBIT, 0x00000004, 0xF00FF0FF⟩,
  ⟨.ISZERO, 0x00000005, 0xFFFF0FFF⟩,
  ⟨.EQ, 0x00000006, 0xFFF00FFF⟩,
  ⟨.DEG, 0x00000007, 0xFFFF0FFF⟩,
  ⟨.FADD, 0x00000010, 0xFFF000FF⟩,
  ⟨.FINC, 0x00000011, 0xFFFF00FF⟩,
  ⟨.FMUL, 0x00000012, 0xFFF000FF⟩,
  ⟨.FINV, 0x00000013, 0xFFFF00FF⟩,
  ⟨.PISID, 0x00000020, 0xFFFF1FFF⟩,
  ⟨.PONC, 0x00000021, 0xFFFF1FFF⟩,
  ⟨.PDBL, 0x00000022, 0xFFFF11FF⟩,
  ⟨.PADD, 0x00000023, 0xFFF111FF⟩,
  ⟨.PMUL, 0x00000030, 0xFFF011FF⟩]

/-- The writes that load `v` into `F[r]`, word 0 first (R37, R118). -/
def loadWrites (r : Reg) (v : Elem) : List PortEvent :=
  (List.range 6).map fun k =>
    .bus (.write (BitVec.ofNat 12 (0x20 * r.toNat + 4 * k)) 4 (BitVec.ofNat 32 (v.toNat >>> (32 * k))))

/-- A command word written to CMD, and its commit before the next transaction (R39, R46). -/
def issue (w : Word) : List PortEvent := [.bus (.write 0x200 4 w), .core]

/-- A value read as a polynomial over GF(2): bit `i` is the coefficient of `x^i` (R9). -/
noncomputable def polyOf {n : Nat} (v : BitVec n) : Polynomial (ZMod 2) :=
  ∑ i ∈ Finset.range n, if v.getLsbD i then Polynomial.X ^ i else 0

end Sys2Proof.Safety
end

