-- ==== Sys2Proof/Certificates/Slice0/Obligations.lean ====
section
/-! DEFINITION. The statements for the provers, from the numbered rules of spec/ (INVENTORY.md; OBLIGATIONS.json cites each rule). -/

open Sys2Proof Sys2Proof.Machine Sys2Proof.Safety

/-! Encoding and decoding -/

/-- A well-formed command's word decodes to that command: no bit of an encoding is dropped (R51, R55, R57). -/
def Obligations.DecodeOfEncodeIsTheCommand : Prop :=
  ∀ i : Instr, i.wellFormed = true → decode (encode i) = .ok i

/-- A word that decodes is the word of its command, which is well-formed: every word has one meaning (R56, R57). -/
def Obligations.DecodedWordIsItsEncoding : Prop :=
  ∀ (w : Word) (i : Instr), decode w = .ok i → i.wellFormed = true ∧ encode i = w

/-- The decoder accepts, as each mnemonic, exactly the words its row of spec/opcode_table.json matches, of LDC those
with a selector of at most 5 (R55 to R57). -/
def Obligations.DecoderAcceptsExactlyTheTableWords : Prop :=
  ∀ (w : Word) (mn : Mnemonic),
    (∃ i, decode w = .ok i ∧ mnemonicOf i = mn) ↔
      ∃ row ∈ opcodeTable, row.mnemonic = mn ∧ w &&& row.mask = row.pattern ∧
        (mn = .LDC → (w.extractLsb' 20 8).toNat ≤ 5)

/-- Words the spec writes out decode to the commands it names (R68, R69, R70, R81, R84, R93, R97). -/
def Obligations.WordsOfTheSpecDecode : Prop :=
  decode 0x00002501 = .ok (.fmov 5 2) ∧ decode 0x00500102 = .ok (.ldc 1 5) ∧
  decode 0x0A100003 = .ok (.getbit 0 161) ∧ decode 0x00010210 = .ok (.fadd 2 0 1) ∧
  decode 0x00000313 = .ok (.finv 3 0) ∧ decode 0x00000222 = .ok (.pdbl 2 0) ∧
  decode 0x00080630 = .ok (.pmul 6 0 8)

/-- R56: a word with RSV, or a field its opcode's row marks `0`, not zero is Illegal. -/
def Obligations.NonzeroMustBeZeroFieldIsIllegal : Prop :=
  ∀ w : Word,
    ((fieldsOf w).rsv ≠ 0 ∨
      ∃ row, rowOf (fieldsOf w).opc = some row ∧
        ((row.rd = .zero ∧ (fieldsOf w).rd ≠ 0) ∨ (row.ra = .zero ∧ (fieldsOf w).ra ≠ 0) ∨
          (row.rb = .zero ∧ (fieldsOf w).rb ≠ 0) ∨ (row.imm = .zero ∧ (fieldsOf w).imm ≠ 0))) →
    ∃ cause, decode w = .error cause

/-- A word with an odd value in a field of point role is Illegal (R53). -/
def Obligations.OddPointFieldIsIllegal : Prop :=
  ∀ (w : Word) (row : OpcodeRow), rowOf (fieldsOf w).opc = some row →
    ((row.rd = .point ∧ (fieldsOf w).rd.toNat % 2 = 1) ∨ (row.ra = .point ∧ (fieldsOf w).ra.toNat % 2 = 1) ∨
      (row.rb = .point ∧ (fieldsOf w).rb.toNat % 2 = 1)) →
    ∃ cause, decode w = .error cause

/-! The command lifecycle -/

/-- R58: an Illegal word written to CMD of an idle block is accepted like any other, and its commit changes no field
register and not RES, and leaves ERR = 1 and ECODE = 1, whatever the operands hold (R102.1). In every busy state whose
latched word is Illegal, whatever came between, the CORE's turn is that commit, and WIGN is kept (R29.3, R102.4). -/
def Obligations.IllegalWordCommitsOnlyItsErrorCode : Prop :=
  (∀ (s : State) (w : Word) (cause : IllegalCause), s.status.busy = false → decode w = .error cause →
    ∃ t u, run 1 { s with port := issue w } = .next t ∧ t.status = ⟨true, false, false, false, none⟩ ∧
      t.latchWord = w ∧ t.latchF = s.f ∧
      run 2 { s with port := issue w } = .next u ∧ u.f = s.f ∧ u.res = s.res ∧ u.rom = s.rom ∧
      u.status = ⟨false, true, true, false, some .illegalCmd⟩) ∧
  (∀ (s u : State) (cause : IllegalCause), s.status.busy = true → decode s.latchWord = .error cause →
    (s.port = [] ∧ u = s ∨ ∃ rest, s.port = .core :: rest ∧ u = { s with port := rest }) →
    ∃ t, step s = .next t ∧ t.f = u.f ∧ t.res = u.res ∧ CommandFrame u t ∧
      t.status = ⟨false, true, true, s.status.wign, some .illegalCmd⟩)

/-- When the latched word decodes, the CORE's turn is exactly the command's meaning: at an empty port on the state
itself, else on the state with the turn taken off the port (R28). -/
def Obligations.StepRunsTheDecodedCommand : Prop :=
  ∀ (s : State) (i : Instr), s.status.busy = true → decode s.latchWord = .ok i →
    (s.port = [] → step s = exec i s) ∧
    (∀ rest, s.port = .core :: rest → step s = exec i { s with port := rest })

/-- R27: a CMD write to an idle block latches the word and every field register and sets STATUS, in one step; to a busy
block it is not accepted. -/
def Obligations.CmdWriteAcceptsTheCommand : Prop :=
  ∀ (s : State) (w : Word) (rest : List PortEvent), s.port = .bus (.write 0x200 4 w) :: rest →
    (s.status.busy = false →
      step s = .next { s with port := rest, latchWord := w, latchF := s.f, hostResp := some (.write .ok), status := ⟨true, false, false, false, none⟩ }) ∧
    (s.status.busy = true →
      step s = .next { s with port := rest, hostResp := some (.write .ok), status := { s.status with wign := true } })

/-- Every command commits in one step, all or nothing: BUSY 0, DONE 1, WIGN kept, ERR exactly with a code; with ERR = 0
every staged write is applied to F and RES, and with ERR = 1 no register and not RES is changed (R29, R100). That the staged
result is still held after the commit is the model's choice (log entry 16). -/
def Obligations.CommitIsAllOrNothing : Prop :=
  ∀ (i : Instr) (s : State), ∃ t, exec i s = .next t ∧
    t.status.busy = false ∧ t.status.done = true ∧ t.status.wign = s.status.wign ∧
    (t.status.err = true ↔ t.status.ecode ≠ none) ∧
    (t.status.err = false →
      ∃ regs res, t.staged = .writes regs res ∧ t.f = writeRegs regs s.f ∧ t.res = res.getD s.res) ∧
    (t.status.err = true → t.f = s.f ∧ t.res = s.res) ∧ CommandFrame s t

/-- A command writes no field register but its destination; a query writes none (R18). -/
def Obligations.CommandsWriteOnlyTheirDestination : Prop :=
  ∀ (i : Instr) (s t : State), exec i s = .next t →
    ∀ r, r ∉ destinations i → readReg t.f r = readReg s.f r

/-- Only the query commands change RES, and what they leave in it without error is 0 or 1, for DEG 0 to 163 (R21). -/
def Obligations.OnlyQueriesWriteRes : Prop :=
  ∀ (i : Instr) (s t : State), exec i s = .next t →
    (mnemonicOf i ∉ queries → t.res = s.res) ∧
    (mnemonicOf i ∈ queries → t.status.err = false →
      if mnemonicOf i = .DEG then t.res.toNat ≤ 163 else t.res = 0 ∨ t.res = 1)

/-- Of the commands that decode, FINV alone raises ZERO_INVERSE, GETBIT and CLRBIT alone BIT_INDEX, and there is
no other execution error (R101). -/
def Obligations.CommandsRaiseOnlyTheirErrors : Prop :=
  ∀ (i : Instr) (s t : State) (e : CmdError), i.wellFormed = true → exec i s = .next t → t.status.ecode = some e →
    (e = .zeroInverse ∧ mnemonicOf i = .FINV) ∨ (e = .bitIndex ∧ (mnemonicOf i = .GETBIT ∨ mnemonicOf i = .CLRBIT))

/-- A command term that no word decodes to (an odd point field, a selector above 5) ends in ILLEGAL_CMD, as its word
does. MODEL'S CHOICE for terms the decoder never gives (log entry 9). -/
def Obligations.IllFormedTermEndsInIllegalCmd : Prop :=
  ∀ (i : Instr) (s : State), i.wellFormed = false → Fails i s .illegalCmd

/-! The whole machine -/

/-- No state stops the block: every step answers a next state, since a bad access is answered with resp ERROR (R43, R104),
a command error is a commit (R28, R100), and reset comes in every state (R113). That none of these ends in a fault or a
refusal of the model is DEDUCED in log entry 12. -/
def Obligations.StepAlwaysAnswersANextState : Prop :=
  ∀ s : State, ∃ t, step s = .next t

/-- Every accepted command commits, unless reset abandons it (R28, R113): where no reset is among the events at the port, a
run of at most one step more than there are events ends in DONE = 1 with the registers, RES, ERR and ECODE that the command
commits without those events; and from every state, when all events have been taken and the CORE has had one more turn, no
command is in progress. That the order of events is a list in the state is the model's choice (log entry 2). -/
def Obligations.EveryAcceptedCommandCommits : Prop :=
  (∀ s : State, s.status.busy = true → (∀ inFlight, PortEvent.rst inFlight ∉ s.port) →
    ∃ k t u, k ≤ s.port.length ∧ run (k + 1) s = .next t ∧ coreTurn s = .next u ∧
      t.f = u.f ∧ t.res = u.res ∧ t.rom = u.rom ∧ t.status.busy = false ∧ t.status.done = true ∧
      t.status = { u.status with wign := t.status.wign }) ∧
  (∀ s : State, ∃ t, run (s.port.length + 1) s = .next t ∧ t.status.busy = false ∧ t.port = [])

/-- Every step keeps the invariant (R21, R25, R27, R30). -/
def Obligations.StepKeepsTheInvariant : Prop :=
  ∀ s t : State, MachineInv s → step s = .next t → MachineInv t

/-- The state after reset meets the invariant. -/
def Obligations.ResetMeetsTheInvariant : Prop := MachineInv State.reset

/-- No step changes ROM (R24, R113). -/
def Obligations.RomNeverChanges : Prop :=
  ∀ s t : State, step s = .next t → t.rom = s.rom

/-- After reset F0 to F15, RES and the CMD latch are 0, STATUS reads 0x00000000, and ROM holds the default CURVE constants
of R8, which the spec itself takes from general knowledge (R31; log entry 1). -/
def Obligations.ResetStateHasTheStatedValues : Prop :=
  (∀ r, readReg State.reset.f r = 0) ∧ State.reset.res = 0 ∧ statusWord State.reset.status = 0x00000000 ∧
  State.reset.latchWord = 0 ∧ State.reset.rom.f = (1 <<< 163 ||| 1 <<< 7 ||| 1 <<< 6 ||| 1 <<< 3 ||| 1) ∧
  State.reset.rom.b = 1 ∧ State.reset.rom.gx = 0x2FE13C0537BBC11ACAA07D793DE4E6D5E5C94EEE8 ∧
  State.reset.rom.gy = 0x289070FB05D38FF58321F2E800536D538CCDAA3D9 ∧
  State.reset.rom.n = 0x4000000000000000000020108A2E0CC0D99F8A5EF

/-- Reset is a step in every state: the registers, RES, STATUS and the CMD latch become 0, ROM stays, and a command in
progress is abandoned: the turn of the CORE after it does nothing (R113). -/
def Obligations.ResetStepReachesTheResetState : Prop :=
  ∀ (s : State) (inFlight : Option Transaction) (rest : List PortEvent), s.port = .rst inFlight :: rest →
    ∃ t, step s = .next t ∧ (∀ r, readReg t.f r = 0) ∧ t.res = 0 ∧ t.status = ⟨false, false, false, false, none⟩ ∧
      t.latchWord = 0 ∧ t.rom = s.rom ∧ t.port = rest ∧ coreTurn t = .next t

/-- An idle block with nothing at its port does nothing (R112). -/
def Obligations.IdleBlockDoesNothing : Prop :=
  ∀ s : State, s.status.busy = false → s.port = [] → step s = .next s

/-- Whatever transactions the host makes between accept and commit, the command commits what it commits without them;
only WIGN may differ (R30, R42, R46). The order of events is the model's port list (log entry 2). -/
def Obligations.HostCannotDisturbARunningCommand : Prop :=
  ∀ (s : State) (ts : List Transaction) (rest : List PortEvent), s.status.busy = true →
    ∃ t u, run (ts.length + 1) { s with port := ts.map .bus ++ .core :: rest } = .next t ∧
      step { s with port := .core :: rest } = .next u ∧
      t.f = u.f ∧ t.res = u.res ∧ t.rom = u.rom ∧ t.port = u.port ∧
      t.status = { u.status with wign := t.status.wign }

/-- The working buffers never show: a step from a state with any other content in them leads to the same state but
for them (R23, R30). -/
def Obligations.WorkingBuffersNeverShow : Prop :=
  ∀ (s t : State) (w : WorkBuffers), step s = .next t →
    ∃ w', step { s with work := w } = .next { t with work := w' }

/-- What a command's pseudocode assigns reaches the working buffers, 192 bits wide, and nothing else does (R13, R23), for
every command. FMOV, LDC, GETBIT, CLRBIT, ISZERO, EQ, DEG, FADD, FINC, PISID and a term that no word decodes to leave every
buffer as it is; FMUL leaves its `acc` and `t`, FINV its pairs; PONC of a pair that is not the identity the product
`x²·x`, its last; PDBL, PADD and PMUL what R87, R88 and R95 assign, PMUL bit by bit from the identity, with `R` the result.
What the point `Q` and the counters of the multiply and scalar loops hold is left open (log entry 4). For PDBL, PADD and PMUL
the content of the buffers is the model's choice: R90 and U4 leave their internal form open (log entry 18). The counters'
width is the model's too (log entry 17). -/
def Obligations.WorkingBuffersHoldWhatWasAssigned : Prop :=
  (∀ (i : Instr) (s t : State),
    i.wellFormed = false ∨
      mnemonicOf i ∈ [Mnemonic.FMOV, .LDC, .GETBIT, .CLRBIT, .ISZERO, .EQ, .DEG, .FADD, .FINC, .PISID] →
    exec i s = .next t → t.work = s.work) ∧
  (∀ (s : State) (fd fa fb : Reg),
    (∃ t, exec (.fmul fd fa fb) s = .next t ∧
      LeavesProduct s.rom.f (latchedF s fa) (latchedF s fb) s.work t.work) ∧
    ∃ t, exec (.finv fd fa) s = .next t ∧ LeavesInverse s.rom.f (latchedF s fa) s.work t.work) ∧
  (∀ (s : State) (pd pa pb fk : Reg), pd.toNat % 2 = 0 → pa.toNat % 2 = 0 →
    (∃ t, exec (.ponc pa) s = .next t ∧ (latchedP s pa = ⟨0, 0⟩ → t.work = s.work) ∧
      (latchedP s pa ≠ ⟨0, 0⟩ →
        LeavesProduct s.rom.f (gfMul s.rom.f (latchedF s pa) (latchedF s pa)) (latchedF s pa) s.work t.work)) ∧
    (∃ t, exec (.pdbl pd pa) s = .next t ∧ LeavesDouble s.rom (latchedP s pa) s.work t.work) ∧
    (pb.toNat % 2 = 0 →
      ∃ t, exec (.padd pd pa pb) s = .next t ∧ LeavesSum s.rom (latchedP s pa) (latchedP s pb) s.work t.work) ∧
    ∃ t, exec (.pmul pd pa fk) s = .next t ∧
      t.work = workScalar s.rom s.freeIdx (latchedP s pa) (latchedF s fk) s.work ∧
      LeavesR (scalarMultiply s.rom (latchedP s pa) (latchedF s fk)) t.work t.work) ∧
  (∀ (c : Curve) (n : Nat) (p : Point) (w : WorkBuffers),
    (∃ i, LeavesR ⟨0, 0⟩ { w with scalarCounter := i } (workScalar c n p 0 w)) ∧
    ∀ (k : Elem) (d : Point), k.toNat < 2 ^ 162 → d = ptDouble c (scalarMultiply c p k) →
      ∃ w₁ w₂ w₃,
        LeavesDouble c (scalarMultiply c p k) (workScalar c n p k w) w₁ ∧ LeavesR d w₁ w₂ ∧
        workScalar c n p (k <<< 1) w = w₂ ∧
        LeavesSum c d p w₂ w₃ ∧ LeavesR (ptAdd c d p) w₃ (workScalar c n p (k <<< 1 ||| 1) w))

/-! The register window -/

/-- R37: a write of word `w` of `F[r]` to an idle block changes the bits of that word alone, of word 5 the bits 162:160,
and is answered OK. -/
def Obligations.FieldWordWriteUpdatesThatWordAlone : Prop :=
  ∀ (s : State) (r : Reg) (w : Nat) (d : Word) (rest : List PortEvent), w < 6 → s.status.busy = false →
    s.port = .bus (.write (BitVec.ofNat 12 (0x20 * r.toNat + 4 * w)) 4 d) :: rest →
    ∃ t, step s = .next t ∧
      (∀ j < 163, (readReg t.f r).getLsbD j =
        if 32 * w ≤ j ∧ j < 32 * w + 32 then d.getLsbD (j - 32 * w) else (readReg s.f r).getLsbD j) ∧
      (∀ q, q ≠ r → readReg t.f q = readReg s.f q) ∧
      t = { s with f := t.f, port := rest, hostResp := some (.write .ok) }

/-- A read of word `w` of `F[r]` answers the word zero-extended, with resp OK, and has no side effect (R38). While a
command is in progress, in every state that meets the invariant, it answers the value latched at the accept (R30). -/
def Obligations.FieldWordReadIsZeroExtended : Prop :=
  ∀ (s : State) (r : Reg) (w : Nat) (rest : List PortEvent), w < 6 →
    s.port = .bus (.read (BitVec.ofNat 12 (0x20 * r.toNat + 4 * w)) 4) :: rest →
    ∃ data, step s = .next { s with port := rest, hostResp := some (.read data .ok) } ∧
      (∀ j < 32, data.getLsbD j = (readReg s.f r).getLsbD (32 * w + j)) ∧
      (MachineInv s → s.status.busy = true → ∀ j < 32, data.getLsbD j = (latchedF s r).getLsbD (32 * w + j))

/-- Six word writes load a register with any value, and nothing else (R36, R37, R118). -/
def Obligations.SixWordWritesLoadARegister : Prop :=
  ∀ (s : State) (r : Reg) (v : Elem) (rest : List PortEvent), s.status.busy = false →
    ∃ t, run 6 { s with port := loadWrites r v ++ rest } = .next t ∧
      (∀ q, readReg t.f q = if q = r then v else readReg s.f q) ∧
      t = { s with f := t.f, port := rest, hostResp := some (.write .ok) }

/-- R40: reads of STATUS and RES answer their live values and change nothing; writes to them are ignored, are answered
OK and do not set WIGN, busy or not. -/
def Obligations.StatusAndResAreReadOnly : Prop :=
  ∀ (s : State) (rest : List PortEvent) (d : Word),
    (s.port = .bus (.read 0x204 4) :: rest →
      step s = .next { s with port := rest, hostResp := some (.read (statusWord s.status) .ok) }) ∧
    (s.port = .bus (.read 0x208 4) :: rest →
      step s = .next { s with port := rest, hostResp := some (.read s.res .ok) }) ∧
    (s.port = .bus (.write 0x204 4 d) :: rest ∨ s.port = .bus (.write 0x208 4 d) :: rest →
      step s = .next { s with port := rest, hostResp := some (.write .ok) })

/-- R30: from the accept of a command on, whatever transactions the host makes, and until the commit, an aligned read of
any offset answers what it answered before the accept, but for STATUS, which is read live; the writes among them are
dropped. The order of events is the model's port list (log entry 2). -/
def Obligations.ReadsWhileBusyShowTheValuesBeforeAccept : Prop :=
  ∀ (s : State) (w : Word) (ts : List Transaction) (off : Offset) (rest : List PortEvent),
    s.status.busy = false → off.toNat % 4 = 0 →
    ∃ t data,
      run (ts.length + 1) { s with port := .bus (.write 0x200 4 w) :: (ts.map .bus ++ .bus (.read off 4) :: rest) } =
        .next t ∧
      t.status.busy = true ∧ t.f = s.f ∧ t.res = s.res ∧ t.latchWord = w ∧ t.latchF = s.f ∧
      step { s with port := .bus (.read off 4) :: rest } =
        .next { s with port := rest, hostResp := some (.read data .ok) } ∧
      step t = .next { t with
        port := rest
        hostResp := some (.read (if off = 0x204 then statusWord t.status else data) .ok) }

/-- The fields of STATUS stand at the bits of R25, ECODE with the codes of R99, and bits 31:8 are 0. -/
def Obligations.StatusWordLayout : Prop :=
  ∀ st : Status,
    (statusWord st).getLsbD 0 = st.busy ∧ (statusWord st).getLsbD 1 = st.done ∧
    (statusWord st).getLsbD 2 = st.err ∧ (statusWord st).getLsbD 3 = st.wign ∧
    ((statusWord st).extractLsb' 4 4 =
      match st.ecode with | none => 0 | some .illegalCmd => 1 | some .zeroInverse => 2 | some .bitIndex => 3) ∧
    (statusWord st).extractLsb' 8 24 = 0

/-- A write of any word to CMD of an idle block is accepted and answered OK; a read of CMD answers 0 with resp OK and
changes nothing (R39). -/
def Obligations.CmdTakesEveryWordAndReadsZero : Prop :=
  ∀ (s : State) (rest : List PortEvent) (d : Word),
    (s.status.busy = false → s.port = .bus (.write 0x200 4 d) :: rest →
      ∃ t, step s = .next t ∧ t.status.busy = true ∧ t.latchWord = d ∧ t.hostResp = some (.write .ok)) ∧
    (s.port = .bus (.read 0x200 4) :: rest →
      step s = .next { s with port := rest, hostResp := some (.read 0 .ok) })

/-- R41: an aligned 32-bit access to a reserved offset is answered OK; a read gives 0, a write changes nothing and does
not set WIGN, busy or not. -/
def Obligations.ReservedOffsetsReadZeroIgnoreWrites : Prop :=
  ∀ (s : State) (off : Offset) (d : Word) (rest : List PortEvent), off.toNat % 4 = 0 →
    (off.toNat < 0x200 ∧ 0x18 ≤ off.toNat % 0x20 ∨ 0x20C ≤ off.toNat) →
    (s.port = .bus (.read off 4) :: rest →
      step s = .next { s with port := rest, hostResp := some (.read 0 .ok) }) ∧
    (s.port = .bus (.write off 4 d) :: rest →
      step s = .next { s with port := rest, hostResp := some (.write .ok) })

/-- R42: an aligned 32-bit write to a field register word or to CMD while BUSY = 1 changes no register, starts no
command, sets WIGN and is answered OK. -/
def Obligations.WriteWhileBusyIsDropped : Prop :=
  ∀ (s : State) (off : Offset) (d : Word) (rest : List PortEvent), s.status.busy = true →
    ((∃ (r : Reg) (w : Nat), w < 6 ∧ off = BitVec.ofNat 12 (0x20 * r.toNat + 4 * w)) ∨ off = 0x200) →
    s.port = .bus (.write off 4 d) :: rest →
    step s = .next { s with port := rest, hostResp := some (.write .ok), status := { s.status with wign := true } }

/-- R43: an access of another size than 4, or at an offset that is no multiple of 4, changes no state and starts no
command; it is answered ERROR, a read with data 0. -/
def Obligations.BadAccessIsAnsweredErrorOnly : Prop :=
  ∀ (s : State) (off : Offset) (size : Nat) (d : Word) (rest : List PortEvent),
    (size ≠ 4 ∨ off.toNat % 4 ≠ 0) →
    (s.port = .bus (.read off size) :: rest →
      step s = .next { s with port := rest, hostResp := some (.read 0 .error) }) ∧
    (s.port = .bus (.write off size d) :: rest →
      step s = .next { s with port := rest, hostResp := some (.write .error) })

/-- The window map (R35): the word `w < 6` of `F[r]` stands at `0x20·r + 4·w` and nowhere else among the aligned
offsets, CMD, STATUS and RES at their one offset each, and all other aligned offsets are reserved. -/
def Obligations.WindowMapIsExact : Prop :=
  ∀ off : Offset, off.toNat % 4 = 0 →
    (∀ (r : Reg) (w : Nat), locate off = .fieldWord r w ↔ w < 6 ∧ off.toNat = 0x20 * r.toNat + 4 * w) ∧
    (locate off = .cmd ↔ off.toNat = 0x200) ∧ (locate off = .status ↔ off.toNat = 0x204) ∧
    (locate off = .res ↔ off.toNat = 0x208) ∧
    (locate off = .reserved ↔ (off.toNat < 0x200 ∧ 0x18 ≤ off.toNat % 0x20) ∨ 0x20C ≤ off.toNat)

/-- The window is 4 KiB, aligned at BASE, and its bus addresses are `BASE + off`, each selecting its own offset; the
bytes of a word lie on the lanes in little-endian order (R33, R44, R124). -/
def Obligations.BusAddressesAndByteLanes : Prop :=
  Config.base % 4096 = 0 ∧
  (∀ (addr : Nat) (off : Offset), windowOffset addr = some off ↔ addr = Config.base + off.toNat) ∧
  (∀ (d : Word) (k j : Nat), k < 4 → j < 8 → (byteLane d k).getLsbD j = d.getLsbD (8 * k + j)) ∧
  (∀ d : Word, wordOfLanes (byteLane d 0) (byteLane d 1) (byteLane d 2) (byteLane d 3) = d)

/-! The representation commands -/

/-- FMOV copies the latched source to its destination, also onto itself (R68). -/
def Obligations.FmovCopiesARegister : Prop :=
  ∀ (s : State) (fd fa : Reg), Completes (.fmov fd fa) s (withReg s fd (latchedF s fa)) s.res

/-- LDC loads the constant of its selector: 0, 1, b, Gx, Gy, n (R69). -/
def Obligations.LdcLoadsTheSelectedConstant : Prop :=
  ∀ (s : State) (fd : Reg),
    Completes (.ldc fd 0) s (withReg s fd 0) s.res ∧ Completes (.ldc fd 1) s (withReg s fd 1) s.res ∧
    Completes (.ldc fd 2) s (withReg s fd s.rom.b) s.res ∧ Completes (.ldc fd 3) s (withReg s fd s.rom.gx) s.res ∧
    Completes (.ldc fd 4) s (withReg s fd s.rom.gy) s.res ∧ Completes (.ldc fd 5) s (withReg s fd s.rom.n) s.res

/-- GETBIT puts bit `i` of its source in RES, which for 163 to 191 is 0; from 192 on it ends in BIT_INDEX (R63, R70). -/
def Obligations.GetbitReadsTheBitOrFails : Prop :=
  ∀ (s : State) (fa : Reg) (i : BitVec 8),
    if i.toNat < 192 then
      Completes (.getbit fa i) s (kept s) (if (latchedF s fa).getLsbD i.toNat then 1 else 0)
    else Fails (.getbit fa i) s .bitIndex

/-- CLRBIT clears bit `i` of its register and keeps every other bit, so that 163 to 191 change nothing; from 192 on it
ends in BIT_INDEX (R64, R71). -/
def Obligations.ClrbitClearsTheBitOrFails : Prop :=
  ∀ (s : State) (fd : Reg) (i : BitVec 8),
    if i.toNat < 192 then
      ∃ v : Elem, (∀ j < 163, v.getLsbD j = (decide (j ≠ i.toNat) && (latchedF s fd).getLsbD j)) ∧
        Completes (.clrbit fd i) s (withReg s fd v) s.res
    else Fails (.clrbit fd i) s .bitIndex

/-- ISZERO, EQ and DEG put the answer in RES and write no field register: whether the source is 0, whether the two
sources are equal, the source's bit length (R65, R66, R72, R73, R74). -/
def Obligations.IszeroEqDegAnswerInRes : Prop :=
  ∀ (s : State) (fa fb : Reg),
    Completes (.iszero fa) s (kept s) (if latchedF s fa = 0 then 1 else 0) ∧
    Completes (.eq fa fb) s (kept s) (if latchedF s fa = latchedF s fb then 1 else 0) ∧
    Completes (.deg fa) s (kept s) (BitVec.ofNat 32 (Nat.size (latchedF s fa).toNat))

/-- R66: the scan from the top word down gives `bitlen`, which is the index of the highest set bit plus one, 0 for 0;
its range is 0 to 192, and 0 to 163 for a field register. -/
def Obligations.BitlenScanGivesTheHighestSetBit : Prop :=
  (∀ v : Buf, bitlenScan v = bitlen v ∧ bitlen v ≤ 192 ∧ (∀ j, bitlen v ≤ j → v.getLsbD j = false) ∧
    (v ≠ 0 → v.getLsbD (bitlen v - 1) = true ∧ 0 < bitlen v) ∧ (v = 0 → bitlen v = 0)) ∧
  (∀ e : Elem, bitlen (toBuf e) ≤ 163)

/-! The field commands -/

/-- FADD and FINC write the exclusive or of their sources, and of their source and 1 (R75, R80, R81, R82). -/
def Obligations.FaddFincWriteTheSum : Prop :=
  ∀ (s : State) (fd fa fb : Reg),
    Completes (.fadd fd fa fb) s (withReg s fd (latchedF s fa ^^^ latchedF s fb)) s.res ∧
    Completes (.finc fd fa) s (withReg s fd (latchedF s fa ^^^ 1)) s.res

/-- FMUL completes for every operand and writes `gf_mul` of its latched sources (R76, R83). -/
def Obligations.FmulCompletesWithGfMul : Prop :=
  ∀ (s : State) (fd fa fb : Reg),
    Completes (.fmul fd fa fb) s (withReg s fd (gfMul s.rom.f (latchedF s fa) (latchedF s fb))) s.res

/-- FINV of a nonzero source completes and writes what `gf_inv` gives; of zero it ends in ZERO_INVERSE (R78, R84). -/
def Obligations.FinvCompletesOrFailsOnZero : Prop :=
  ∀ (s : State) (fd fa : Reg),
    if latchedF s fa = 0 then Fails (.finv fd fa) s .zeroInverse
    else ∃ v, gfInv s.rom.f (latchedF s fa) = .ok v ∧ Completes (.finv fd fa) s (withReg s fd v) s.res

/-- `gf_mul` is the field product: as polynomials over GF(2), its result is the product of the operands modulo `f`, for
every `f` of polynomial degree 163 (R77.4). -/
def Obligations.GfMulIsTheProductModuloF : Prop :=
  ∀ (f : Buf) (x y : Elem), bitlen f = 164 → polyOf (gfMul f x y) = (polyOf x * polyOf y) %ₘ polyOf f

/-- In the multiply loop `t` and `acc` are canonical after every iteration, so that writing the result to 163 bits loses
nothing (R77.1 to R77.3). -/
def Obligations.MultiplyLoopStaysCanonical : Prop :=
  ∀ (f : Buf) (x y : Elem) (n : Nat), bitlen f = 164 →
    (mulLoop f x y n).t.toNat < 2 ^ 163 ∧ (mulLoop f x y n).acc.toNat < 2 ^ 163

/-- The field product commutes, associates, distributes over the sum, and has 1 as its unit and 0 as its zero, for every
`f` of polynomial degree 163 (R2, R77.4, R83). -/
def Obligations.GfMulRingLaws : Prop :=
  ∀ (f : Buf) (x y z : Elem), bitlen f = 164 →
    gfMul f x y = gfMul f y x ∧ gfMul f (gfMul f x y) z = gfMul f x (gfMul f y z) ∧
    gfMul f x (gfAdd y z) = gfAdd (gfMul f x y) (gfMul f x z) ∧ gfMul f x 1 = x ∧ gfMul f x 0 = 0

/-- The inversion loop is right: for every `f` of polynomial degree 163 and every element coprime to it, the loop ends
within 324 iterations with `u = 1` and a canonical `g`, and the value of `gf_inv` times the element is 1 (R79). -/
def Obligations.InversionLoopGivesTheInverse : Prop :=
  ∀ (f : Buf) (x : Elem), bitlen f = 164 → IsCoprime (polyOf x) (polyOf f) →
    (invLoop 324 (invStart f x)).u = 1 ∧ (invLoop 324 (invStart f x)).g.toNat < 2 ^ 163 ∧
    ∃ v, gfInv f x = .ok v ∧ gfMul f x v = 1

/-- With the default constants every nonzero element has its inverse: FINV then FMUL gives 1 (R78, R79, R84). The
constants are those of log entry 1. -/
def Obligations.EveryNonzeroElementIsInverted : Prop :=
  ∀ x : Elem, x ≠ 0 → ∃ v, gfInv Config.k163.f x = .ok v ∧ gfMul Config.k163.f x v = 1

/-- Writing the word of `FINC Fr, Fr` to CMD twice runs it twice, which restores the register (R45, R82). -/
def Obligations.FincIssuedTwiceRestores : Prop :=
  ∀ (s : State) (r : Reg), s.status.busy = false →
    ∃ t u, run 2 { s with port := issue (encode (.finc r r)) ++ issue (encode (.finc r r)) } = .next t ∧
      run 4 { s with port := issue (encode (.finc r r)) ++ issue (encode (.finc r r)) } = .next u ∧
      readReg t.f r = readReg s.f r ^^^ 1 ∧ u.f = s.f ∧ u.status = ⟨false, true, false, false, none⟩

/-! The point commands -/

/-- PISID and PONC of an even point register answer in RES and write no field register: 1 exactly for (0, 0); and 1
exactly for (0, 0) or where `y² + xy = x³ + x² + b` holds over the field (R85, R86, R91, R92). -/
def Obligations.PisidPoncAnswerInRes : Prop :=
  ∀ (s : State) (pa : Reg), pa.toNat % 2 = 0 →
    Completes (.pisid pa) s (kept s) (if latchedF s pa = 0 ∧ latchedF s (pa + 1) = 0 then 1 else 0) ∧
    ∀ x y, x = latchedF s pa → y = latchedF s (pa + 1) →
      Completes (.ponc pa) s (kept s)
        (if (x = 0 ∧ y = 0) ∨
            gfMul s.rom.f y y ^^^ gfMul s.rom.f x y =
              gfMul s.rom.f (gfMul s.rom.f x x) x ^^^ gfMul s.rom.f x x ^^^ s.rom.b then 1 else 0)

/-- PDBL, PADD and PMUL of even point registers complete for every operand, on the curve or off it, and write both
registers of the destination with the double, the sum, the multiple of the latched operands (R19, R93, R94, R97). -/
def Obligations.PointCommandsWriteTheirPoint : Prop :=
  ∀ (s : State) (pd pa pb fk : Reg), pd.toNat % 2 = 0 → pa.toNat % 2 = 0 →
    Completes (.pdbl pd pa) s (withPoint s pd (ptDouble s.rom (latchedP s pa))) s.res ∧
    (pb.toNat % 2 = 0 →
      Completes (.padd pd pa pb) s (withPoint s pd (ptAdd s.rom (latchedP s pa) (latchedP s pb))) s.res) ∧
    Completes (.pmul pd pa fk) s (withPoint s pd (scalarMultiply s.rom (latchedP s pa) (latchedF s fk))) s.res

/-- Point doubling and addition, for all pairs of elements (R87, R88, R89, R94). The laws: `P + O = O + P = P`; `P + P` is
the double of `P`; two different points with one `x` add to the identity, `(x, y) + (x, x + y)` with `x` not 0 among them;
every `(0, y)` doubles to the identity. The general cases: for `x` not 0 the double is `(x3, y3)` with
`lam = x + y/x`, `x3 = lam² + lam + 1`, `y3 = x² + (lam + 1)·x3`; for `xP` not `xQ` the sum of two points that are not the
identity is `(x3, y3)` with `lam = (yP + yQ)/(xP + xQ)`, `x3 = lam² + lam + xP + xQ + 1`, `y3 = lam·(xP + x3) + x3 + yP`. -/
def Obligations.PointAdditionLaws : Prop :=
  ∀ (c : Curve) (p : Point),
    ptAdd c p ⟨0, 0⟩ = p ∧ ptAdd c ⟨0, 0⟩ p = p ∧ (p ≠ ⟨0, 0⟩ → ptAdd c p p = ptDouble c p) ∧
    (p.x ≠ 0 → ptAdd c p ⟨p.x, p.x ^^^ p.y⟩ = ⟨0, 0⟩) ∧ (p.x = 0 → ptDouble c p = ⟨0, 0⟩) ∧
    (∀ v lam x3, p.x ≠ 0 → gfInv c.f p.x = .ok v → lam = p.x ^^^ gfMul c.f p.y v →
      x3 = gfMul c.f lam lam ^^^ lam ^^^ 1 →
      ptDouble c p = ⟨x3, gfMul c.f p.x p.x ^^^ gfMul c.f (lam ^^^ 1) x3⟩) ∧
    (∀ q : Point, p ≠ ⟨0, 0⟩ → q ≠ ⟨0, 0⟩ → p.x = q.x → p.y ≠ q.y → ptAdd c p q = ⟨0, 0⟩) ∧
    (∀ (q : Point) (v lam x3 : Elem), p ≠ ⟨0, 0⟩ → q ≠ ⟨0, 0⟩ → p.x ≠ q.x → gfInv c.f (p.x ^^^ q.x) = .ok v →
      lam = gfMul c.f (p.y ^^^ q.y) v → x3 = gfMul c.f lam lam ^^^ lam ^^^ p.x ^^^ q.x ^^^ 1 →
      ptAdd c p q = ⟨x3, gfMul c.f lam (p.x ^^^ x3) ^^^ x3 ^^^ p.y⟩)

/-- On the default curve (log entry 1) the double and the sum of points of the curve are points of the curve (R89). -/
def Obligations.PointOperationsStayOnTheCurve : Prop :=
  ∀ p q : Point, onCurve Config.k163 p = true → onCurve Config.k163 q = true →
    onCurve Config.k163 (ptDouble Config.k163 p) = true ∧ onCurve Config.k163 (ptAdd Config.k163 p q) = true

/-- Double-and-add bit by bit: a scalar with one more low bit gives the double, plus `P` where that bit is set; and the
scalar 0 gives the identity (R95, R96.3). -/
def Obligations.ScalarMultiplyDoublesAndAdds : Prop :=
  ∀ (c : Curve) (p : Point) (k : Elem),
    scalarMultiply c p 0 = ⟨0, 0⟩ ∧
    (k.toNat < 2 ^ 162 →
      scalarMultiply c p (k <<< 1) = ptDouble c (scalarMultiply c p k) ∧
      scalarMultiply c p (k <<< 1 ||| 1) = ptAdd c (ptDouble c (scalarMultiply c p k)) p)

/-- The scalar 1 gives `P`, the scalar 2 its double, for every pair of elements; and every scalar gives the identity of
the identity (R96.5, R96.6). -/
def Obligations.ScalarMultiplyCornerCases : Prop :=
  ∀ (c : Curve) (p : Point) (k : Elem),
    scalarMultiply c p 1 = p ∧ scalarMultiply c p 2 = ptDouble c p ∧ scalarMultiply c ⟨0, 0⟩ k = ⟨0, 0⟩

/-! The assembler -/

/-- Every command of an assembled line, a pseudo-instruction's expansion included, is well-formed, so that no assembled
word is Illegal (R61, R62). That a line with an odd point register or a selector above 5 has no form, and how a line's text
is read, are the model's choices (log entry 15). -/
def Obligations.AssembledCommandsAreWellFormed : Prop :=
  ∀ (line : List Char) (is : List Instr), assembleLine line = some is → ∀ i ∈ is, i.wellFormed = true

/-- The expansion of `FDIV Fd, Fa, Fb` with `Fd` not `Fa`, issued one command after the other, leaves in `F[d]` the
product of `F[a]` and the inverse of `F[b]`, for `F[b]` not 0 (R62). -/
def Obligations.FdivExpansionDivides : Prop :=
  ∀ (s : State) (d a b : Reg), s.status.busy = false → d ≠ a → readReg s.f b ≠ 0 →
    ∃ i j t v, expansion .FDIV [.f d, .f a, .f b] = some [i, j] ∧
      run 4 { s with port := issue (encode i) ++ issue (encode j) } = .next t ∧
      gfInv s.rom.f (readReg s.f b) = .ok v ∧
      (∀ r, readReg t.f r = if r = d then gfMul s.rom.f (readReg s.f a) v else readReg s.f r) ∧ t.res = s.res
end

