-- ==== Sys2Proof/Laws/State.lean ====
section
/-! SUPPORT. What each update of the state leaves in each field: one lemma per field and update, true by definition. -/

namespace Sys2Proof.Machine

@[simp] theorem accept_f (w : Word) (s : State) : (accept w s).f = s.f := rfl
@[simp] theorem accept_res (w : Word) (s : State) : (accept w s).res = s.res := rfl
@[simp] theorem accept_status (w : Word) (s : State) : (accept w s).status = acceptedStatus := rfl
@[simp] theorem accept_rom (w : Word) (s : State) : (accept w s).rom = s.rom := rfl
@[simp] theorem accept_latchWord (w : Word) (s : State) : (accept w s).latchWord = w := rfl
@[simp] theorem accept_latchF (w : Word) (s : State) : (accept w s).latchF = s.f := rfl
@[simp] theorem accept_staged (w : Word) (s : State) : (accept w s).staged = s.staged := rfl
@[simp] theorem accept_work (w : Word) (s : State) : (accept w s).work = s.work := rfl
@[simp] theorem accept_hostResp (w : Word) (s : State) : (accept w s).hostResp = s.hostResp := rfl
@[simp] theorem accept_port (w : Word) (s : State) : (accept w s).port = s.port := rfl
@[simp] theorem accept_freeIdx (w : Word) (s : State) : (accept w s).freeIdx = s.freeIdx := rfl

@[simp] theorem evaluated_f (r : CmdResult) (w : WorkBuffers) (s : State) : (evaluated r w s).f = s.f := rfl
@[simp] theorem evaluated_res (r : CmdResult) (w : WorkBuffers) (s : State) : (evaluated r w s).res = s.res := rfl
@[simp] theorem evaluated_status (r : CmdResult) (w : WorkBuffers) (s : State) : (evaluated r w s).status = s.status := rfl
@[simp] theorem evaluated_rom (r : CmdResult) (w : WorkBuffers) (s : State) : (evaluated r w s).rom = s.rom := rfl
@[simp] theorem evaluated_latchWord (r : CmdResult) (w : WorkBuffers) (s : State) : (evaluated r w s).latchWord = s.latchWord := rfl
@[simp] theorem evaluated_latchF (r : CmdResult) (w : WorkBuffers) (s : State) : (evaluated r w s).latchF = s.latchF := rfl
@[simp] theorem evaluated_staged (r : CmdResult) (w : WorkBuffers) (s : State) : (evaluated r w s).staged = r := rfl
@[simp] theorem evaluated_work (r : CmdResult) (w : WorkBuffers) (s : State) : (evaluated r w s).work = w := rfl
@[simp] theorem evaluated_hostResp (r : CmdResult) (w : WorkBuffers) (s : State) : (evaluated r w s).hostResp = s.hostResp := rfl
@[simp] theorem evaluated_port (r : CmdResult) (w : WorkBuffers) (s : State) : (evaluated r w s).port = s.port := rfl
@[simp] theorem evaluated_freeIdx (r : CmdResult) (w : WorkBuffers) (s : State) : (evaluated r w s).freeIdx = s.freeIdx + 1 := rfl

@[simp] theorem commitWrites_f (regs : List (Reg × Elem)) (res : Option Word) (s : State) : (commitWrites regs res s).f = writeRegs regs s.f := rfl
@[simp] theorem commitWrites_res (regs : List (Reg × Elem)) (res : Option Word) (s : State) : (commitWrites regs res s).res = res.getD s.res := rfl
@[simp] theorem commitWrites_status (regs : List (Reg × Elem)) (res : Option Word) (s : State) : (commitWrites regs res s).status = committedStatus s.status none := rfl
@[simp] theorem commitWrites_rom (regs : List (Reg × Elem)) (res : Option Word) (s : State) : (commitWrites regs res s).rom = s.rom := rfl
@[simp] theorem commitWrites_latchWord (regs : List (Reg × Elem)) (res : Option Word) (s : State) : (commitWrites regs res s).latchWord = s.latchWord := rfl
@[simp] theorem commitWrites_latchF (regs : List (Reg × Elem)) (res : Option Word) (s : State) : (commitWrites regs res s).latchF = s.latchF := rfl
@[simp] theorem commitWrites_staged (regs : List (Reg × Elem)) (res : Option Word) (s : State) : (commitWrites regs res s).staged = s.staged := rfl
@[simp] theorem commitWrites_work (regs : List (Reg × Elem)) (res : Option Word) (s : State) : (commitWrites regs res s).work = s.work := rfl
@[simp] theorem commitWrites_hostResp (regs : List (Reg × Elem)) (res : Option Word) (s : State) : (commitWrites regs res s).hostResp = s.hostResp := rfl
@[simp] theorem commitWrites_port (regs : List (Reg × Elem)) (res : Option Word) (s : State) : (commitWrites regs res s).port = s.port := rfl
@[simp] theorem commitWrites_freeIdx (regs : List (Reg × Elem)) (res : Option Word) (s : State) : (commitWrites regs res s).freeIdx = s.freeIdx := rfl

@[simp] theorem commitError_f (e : CmdError) (s : State) : (commitError e s).f = s.f := rfl
@[simp] theorem commitError_res (e : CmdError) (s : State) : (commitError e s).res = s.res := rfl
@[simp] theorem commitError_status (e : CmdError) (s : State) : (commitError e s).status = committedStatus s.status (some e) := rfl
@[simp] theorem commitError_rom (e : CmdError) (s : State) : (commitError e s).rom = s.rom := rfl
@[simp] theorem commitError_latchWord (e : CmdError) (s : State) : (commitError e s).latchWord = s.latchWord := rfl
@[simp] theorem commitError_latchF (e : CmdError) (s : State) : (commitError e s).latchF = s.latchF := rfl
@[simp] theorem commitError_staged (e : CmdError) (s : State) : (commitError e s).staged = s.staged := rfl
@[simp] theorem commitError_work (e : CmdError) (s : State) : (commitError e s).work = s.work := rfl
@[simp] theorem commitError_hostResp (e : CmdError) (s : State) : (commitError e s).hostResp = s.hostResp := rfl
@[simp] theorem commitError_port (e : CmdError) (s : State) : (commitError e s).port = s.port := rfl
@[simp] theorem commitError_freeIdx (e : CmdError) (s : State) : (commitError e s).freeIdx = s.freeIdx := rfl

@[simp] theorem reset_f (fl : Option Transaction) (s : State) : (reset fl s).f = Vector.replicate 16 0 := rfl
@[simp] theorem reset_res (fl : Option Transaction) (s : State) : (reset fl s).res = 0 := rfl
@[simp] theorem reset_status (fl : Option Transaction) (s : State) : (reset fl s).status = Status.zero := rfl
@[simp] theorem reset_rom (fl : Option Transaction) (s : State) : (reset fl s).rom = s.rom := rfl
@[simp] theorem reset_latchWord (fl : Option Transaction) (s : State) : (reset fl s).latchWord = 0 := rfl
@[simp] theorem reset_latchF (fl : Option Transaction) (s : State) : (reset fl s).latchF = Vector.replicate 16 0 := rfl
@[simp] theorem reset_staged (fl : Option Transaction) (s : State) : (reset fl s).staged = .writes [] none := rfl
@[simp] theorem reset_work (fl : Option Transaction) (s : State) : (reset fl s).work = freeWork s.freeIdx := rfl
@[simp] theorem reset_hostResp (fl : Option Transaction) (s : State) : (reset fl s).hostResp = fl.map (cutShort s.freeIdx) := rfl
@[simp] theorem reset_port (fl : Option Transaction) (s : State) : (reset fl s).port = s.port := rfl
@[simp] theorem reset_freeIdx (fl : Option Transaction) (s : State) : (reset fl s).freeIdx = s.freeIdx + 1 := rfl

@[simp] theorem dropWrite_f (s : State) : (dropWrite s).f = s.f := rfl
@[simp] theorem dropWrite_res (s : State) : (dropWrite s).res = s.res := rfl
@[simp] theorem dropWrite_status (s : State) : (dropWrite s).status = droppedStatus s.status := rfl
@[simp] theorem dropWrite_rom (s : State) : (dropWrite s).rom = s.rom := rfl
@[simp] theorem dropWrite_latchWord (s : State) : (dropWrite s).latchWord = s.latchWord := rfl
@[simp] theorem dropWrite_latchF (s : State) : (dropWrite s).latchF = s.latchF := rfl
@[simp] theorem dropWrite_staged (s : State) : (dropWrite s).staged = s.staged := rfl
@[simp] theorem dropWrite_work (s : State) : (dropWrite s).work = s.work := rfl
@[simp] theorem dropWrite_hostResp (s : State) : (dropWrite s).hostResp = s.hostResp := rfl
@[simp] theorem dropWrite_port (s : State) : (dropWrite s).port = s.port := rfl
@[simp] theorem dropWrite_freeIdx (s : State) : (dropWrite s).freeIdx = s.freeIdx := rfl

@[simp] theorem writeFieldWord_f (r : Reg) (w : Nat) (d : Word) (s : State) : (writeFieldWord r w d s).f = writeReg s.f r (putWord (readReg s.f r) w d) := rfl
@[simp] theorem writeFieldWord_res (r : Reg) (w : Nat) (d : Word) (s : State) : (writeFieldWord r w d s).res = s.res := rfl
@[simp] theorem writeFieldWord_status (r : Reg) (w : Nat) (d : Word) (s : State) : (writeFieldWord r w d s).status = s.status := rfl
@[simp] theorem writeFieldWord_rom (r : Reg) (w : Nat) (d : Word) (s : State) : (writeFieldWord r w d s).rom = s.rom := rfl
@[simp] theorem writeFieldWord_latchWord (r : Reg) (w : Nat) (d : Word) (s : State) : (writeFieldWord r w d s).latchWord = s.latchWord := rfl
@[simp] theorem writeFieldWord_latchF (r : Reg) (w : Nat) (d : Word) (s : State) : (writeFieldWord r w d s).latchF = s.latchF := rfl
@[simp] theorem writeFieldWord_staged (r : Reg) (w : Nat) (d : Word) (s : State) : (writeFieldWord r w d s).staged = s.staged := rfl
@[simp] theorem writeFieldWord_work (r : Reg) (w : Nat) (d : Word) (s : State) : (writeFieldWord r w d s).work = s.work := rfl
@[simp] theorem writeFieldWord_hostResp (r : Reg) (w : Nat) (d : Word) (s : State) : (writeFieldWord r w d s).hostResp = s.hostResp := rfl
@[simp] theorem writeFieldWord_port (r : Reg) (w : Nat) (d : Word) (s : State) : (writeFieldWord r w d s).port = s.port := rfl
@[simp] theorem writeFieldWord_freeIdx (r : Reg) (w : Nat) (d : Word) (s : State) : (writeFieldWord r w d s).freeIdx = s.freeIdx := rfl

@[simp] theorem respond_f (r : Response) (s : State) : (respond r s).f = s.f := rfl
@[simp] theorem respond_res (r : Response) (s : State) : (respond r s).res = s.res := rfl
@[simp] theorem respond_status (r : Response) (s : State) : (respond r s).status = s.status := rfl
@[simp] theorem respond_rom (r : Response) (s : State) : (respond r s).rom = s.rom := rfl
@[simp] theorem respond_latchWord (r : Response) (s : State) : (respond r s).latchWord = s.latchWord := rfl
@[simp] theorem respond_latchF (r : Response) (s : State) : (respond r s).latchF = s.latchF := rfl
@[simp] theorem respond_staged (r : Response) (s : State) : (respond r s).staged = s.staged := rfl
@[simp] theorem respond_work (r : Response) (s : State) : (respond r s).work = s.work := rfl
@[simp] theorem respond_hostResp (r : Response) (s : State) : (respond r s).hostResp = some r := rfl
@[simp] theorem respond_port (r : Response) (s : State) : (respond r s).port = s.port := rfl
@[simp] theorem respond_freeIdx (r : Response) (s : State) : (respond r s).freeIdx = s.freeIdx := rfl

@[simp] theorem acceptForNextTurn_f (w : Word) (s : State) : (acceptForNextTurn w s).f = s.f := rfl
@[simp] theorem acceptForNextTurn_res (w : Word) (s : State) : (acceptForNextTurn w s).res = s.res := rfl
@[simp] theorem acceptForNextTurn_status (w : Word) (s : State) : (acceptForNextTurn w s).status = acceptedStatus := rfl
@[simp] theorem acceptForNextTurn_rom (w : Word) (s : State) : (acceptForNextTurn w s).rom = s.rom := rfl
@[simp] theorem acceptForNextTurn_latchWord (w : Word) (s : State) : (acceptForNextTurn w s).latchWord = w := rfl
@[simp] theorem acceptForNextTurn_latchF (w : Word) (s : State) : (acceptForNextTurn w s).latchF = s.f := rfl
@[simp] theorem acceptForNextTurn_staged (w : Word) (s : State) : (acceptForNextTurn w s).staged = s.staged := rfl
@[simp] theorem acceptForNextTurn_work (w : Word) (s : State) : (acceptForNextTurn w s).work = s.work := rfl
@[simp] theorem acceptForNextTurn_hostResp (w : Word) (s : State) : (acceptForNextTurn w s).hostResp = s.hostResp := rfl
@[simp] theorem acceptForNextTurn_port (w : Word) (s : State) : (acceptForNextTurn w s).port = .core :: s.port := rfl
@[simp] theorem acceptForNextTurn_freeIdx (w : Word) (s : State) : (acceptForNextTurn w s).freeIdx = s.freeIdx := rfl

@[simp] theorem committedStatus_busy (st : Status) (e : Option CmdError) : (committedStatus st e).busy = false := rfl
@[simp] theorem committedStatus_done (st : Status) (e : Option CmdError) : (committedStatus st e).done = true := rfl
@[simp] theorem committedStatus_err (st : Status) (e : Option CmdError) : (committedStatus st e).err = e.isSome := rfl
@[simp] theorem committedStatus_wign (st : Status) (e : Option CmdError) : (committedStatus st e).wign = st.wign := rfl
@[simp] theorem committedStatus_ecode (st : Status) (e : Option CmdError) : (committedStatus st e).ecode = e := rfl

@[simp] theorem droppedStatus_busy (st : Status) : (droppedStatus st).busy = st.busy := rfl
@[simp] theorem droppedStatus_done (st : Status) : (droppedStatus st).done = st.done := rfl
@[simp] theorem droppedStatus_err (st : Status) : (droppedStatus st).err = st.err := rfl
@[simp] theorem droppedStatus_wign (st : Status) : (droppedStatus st).wign = true := rfl
@[simp] theorem droppedStatus_ecode (st : Status) : (droppedStatus st).ecode = st.ecode := rfl

@[simp] theorem acceptedStatus_busy : acceptedStatus.busy = true := rfl
@[simp] theorem acceptedStatus_done : acceptedStatus.done = false := rfl
@[simp] theorem acceptedStatus_err : acceptedStatus.err = false := rfl
@[simp] theorem acceptedStatus_wign : acceptedStatus.wign = false := rfl
@[simp] theorem acceptedStatus_ecode : acceptedStatus.ecode = none := rfl

@[simp] theorem commit_rom (s : State) : (commit s).rom = s.rom := by
  unfold commit; split <;> rfl
@[simp] theorem commit_latchWord (s : State) : (commit s).latchWord = s.latchWord := by
  unfold commit; split <;> rfl
@[simp] theorem commit_latchF (s : State) : (commit s).latchF = s.latchF := by
  unfold commit; split <;> rfl
@[simp] theorem commit_staged (s : State) : (commit s).staged = s.staged := by
  unfold commit; split <;> rfl
@[simp] theorem commit_work (s : State) : (commit s).work = s.work := by
  unfold commit; split <;> rfl
@[simp] theorem commit_hostResp (s : State) : (commit s).hostResp = s.hostResp := by
  unfold commit; split <;> rfl
@[simp] theorem commit_port (s : State) : (commit s).port = s.port := by
  unfold commit; split <;> rfl
@[simp] theorem commit_freeIdx (s : State) : (commit s).freeIdx = s.freeIdx := by
  unfold commit; split <;> rfl

end Sys2Proof.Machine
end

