-- ==== Sys2Proof/Laws/Ops.lean ====
section
/-! SUPPORT. What each shared operation can do, said once: the register file, the completion of a command, the step. -/

namespace Sys2Proof.Machine

/-- A register read after a write (R11). -/
theorem readReg_writeReg (f : Vector Elem 16) (r q : Reg) (v : Elem) :
    readReg (writeReg f r v) q = if q = r then v else readReg f q := by
  unfold readReg writeReg
  rw [Vector.getElem_set]
  by_cases h : q = r
  · simp [h]
  · rw [if_neg h, if_neg fun e => h (BitVec.eq_of_toNat_eq e.symm)]

@[simp] theorem readReg_writeReg_same (f : Vector Elem 16) (r : Reg) (v : Elem) :
    readReg (writeReg f r v) r = v := by simp [readReg_writeReg]

/-- A register file is what its 16 registers hold (R17). -/
theorem regs_ext (f g : Vector Elem 16) (h : ∀ r, readReg f r = readReg g r) : f = g := by
  apply Vector.ext
  intro k hk
  have := h (BitVec.ofNat 4 k)
  simpa [readReg, Nat.mod_eq_of_lt hk] using this

@[simp] theorem readReg_replicate (v : Elem) (r : Reg) : readReg (Vector.replicate 16 v) r = v := by
  simp [readReg]

@[simp] theorem writeRegs_nil (f : Vector Elem 16) : writeRegs [] f = f := rfl

@[simp] theorem writeRegs_cons (r : Reg) (v : Elem) (l : List (Reg × Elem)) (f : Vector Elem 16) :
    writeRegs ((r, v) :: l) f = writeRegs l (writeReg f r v) := rfl

/-- Two consecutive registers are two: writing a point writes both of them (R19). -/
theorem succ_ne_self (r : Reg) : r + 1 ≠ r := by
  revert r; decide

/-- The register file after a point is written (R19). -/
theorem readReg_writePoint (f : Vector Elem 16) (pd q : Reg) (p : Point) :
    readReg (writeRegs [(pd, p.x), (pd + 1, p.y)] f) q =
      if q = pd then p.x else if q = pd + 1 then p.y else readReg f q := by
  simp only [writeRegs_cons, writeRegs_nil, readReg_writeReg]
  by_cases h : q = pd
  · subst h; simp
  · simp [h]

/-- The commit of staged writes and the commit of an error, apart (R29). -/
theorem commit_evaluated_writes (regs : List (Reg × Elem)) (res : Option Word) (w : WorkBuffers) (s : State) :
    commit (evaluated (.writes regs res) w s) = commitWrites regs res (evaluated (.writes regs res) w s) := rfl

theorem commit_evaluated_error (e : CmdError) (w : WorkBuffers) (s : State) :
    commit (evaluated (.error e) w s) = commitError e (evaluated (.error e) w s) := rfl

/-- All that the end of a command can do: it answers a next state, in which either the staged writes are applied and
no error is reported, or nothing is written and the error is reported (R29, R100). -/
theorem complete_cases {s t : State} {r : CmdResult} {w : WorkBuffers} (h : complete s r w = .next t) :
    (∃ regs res, r = .writes regs res ∧ t.f = writeRegs regs s.f ∧ t.res = res.getD s.res ∧
      t.status = committedStatus s.status none) ∨
    (∃ e, r = .error e ∧ t.f = s.f ∧ t.res = s.res ∧ t.status = committedStatus s.status (some e)) := by
  cases h
  cases r with
  | writes regs res => exact .inl ⟨regs, res, rfl, rfl, rfl, rfl⟩
  | error e => exact .inr ⟨e, rfl, rfl, rfl, rfl⟩

/-- What the end of a command leaves alone: ROM, the latches, the response port and the events to come (R16). -/
theorem complete_frame {s t : State} {r : CmdResult} {w : WorkBuffers} (h : complete s r w = .next t) :
    t.rom = s.rom ∧ t.latchWord = s.latchWord ∧ t.latchF = s.latchF ∧ t.hostResp = s.hostResp ∧ t.port = s.port := by
  cases h; simp

/-- The working state after the end of a command: its result stays staged, and the buffers hold what it left (R13, R28). -/
theorem complete_work {s t : State} {r : CmdResult} {w : WorkBuffers} (h : complete s r w = .next t) :
    t.staged = r ∧ t.work = w ∧ t.freeIdx = s.freeIdx + 1 := by
  cases h; simp

/-- The end of a command on even point registers (R53). -/
theorem completeOnPoints_even {rs : List Reg} (h : rs.any oddReg = false) (s : State) (r : CmdResult) (w : WorkBuffers) :
    completeOnPoints rs s r w = complete s r w := by simp [completeOnPoints, h]

/-- The end of a command with an odd point register (R53). -/
theorem completeOnPoints_odd {rs : List Reg} (h : rs.any oddReg = true) (s : State) (r : CmdResult) (w : WorkBuffers) :
    completeOnPoints rs s r w = complete s (.error .illegalCmd) s.work := by simp [completeOnPoints, h]

/-- The end of a command on point registers is the end of a command. -/
theorem completeOnPoints_complete (rs : List Reg) (s : State) (r : CmdResult) (w : WorkBuffers) :
    ∃ r' w', completeOnPoints rs s r w = complete s r' w' := by
  cases h : rs.any oddReg
  · exact ⟨_, _, completeOnPoints_even h s r w⟩
  · exact ⟨_, _, completeOnPoints_odd h s r w⟩

/-- Every meaning is the end of a command with some result and some content of the working buffers (R28). -/
theorem exec_complete (i : Instr) (s : State) : ∃ r w, exec i s = complete s r w := by
  cases i <;> first | exact ⟨_, _, rfl⟩ | exact completeOnPoints_complete _ s _ _

/-- The answer to a value or an error on a destination (R11). -/
@[simp] theorem stageOr_ok {α : Type} (stage : α → CmdResult) (v : α) : stageOr stage (.ok v) = stage v := rfl

@[simp] theorem stageOr_error {α : Type} (stage : α → CmdResult) (e : CmdError) :
    stageOr stage (.error e) = .error e := rfl

/-- All that `gf_inv` can answer without error: the operand is not zero, and the answer is the loop's (R78). -/
theorem gfInv_ok {f : Buf} {x v : Elem} (h : gfInv f x = .ok v) : x ≠ 0 ∧ gfInvert f x = v := by
  unfold gfInv at h
  split at h
  · cases h
  · next hx => exact ⟨hx, by injection h⟩

/-- A turn of the CORE while a command is in progress ends that command with some result (R28, R29). -/
theorem coreTurn_busy {s : State} (h : s.status.busy = true) : ∃ r w, coreTurn s = complete s r w := by
  unfold coreTurn runCommand
  rw [if_pos h]
  split
  · exact ⟨_, _, rfl⟩
  · exact exec_complete _ s

/-- A turn of an idle CORE (R112). -/
theorem coreTurn_idle {s : State} (h : s.status.busy = false) : coreTurn s = .next s := by
  simp [coreTurn, h]

/-- All that a step can be: a turn of the CORE, a transaction, or reset, by the head of the port (R47). -/
theorem step_cases (s : State) :
    (s.port = [] ∧ step s = coreTurn s) ∨
    (∃ rest, s.port = .core :: rest ∧ step s = coreTurn { s with port := rest }) ∨
    (∃ t rest, s.port = .bus t :: rest ∧ step s = .next (transact t { s with port := rest })) ∨
    (∃ fl rest, s.port = .rst fl :: rest ∧ step s = .next (reset fl { s with port := rest })) := by
  unfold step
  cases h : s.port with
  | nil => exact .inl ⟨rfl, rfl⟩
  | cons ev rest =>
    cases ev with
    | core => exact .inr (.inl ⟨rest, rfl, rfl⟩)
    | bus t => exact .inr (.inr (.inl ⟨t, rest, rfl, rfl⟩))
    | rst fl => exact .inr (.inr (.inr ⟨fl, rest, rfl, rfl⟩))

/-- All that a write to the window can do: nothing, a dropped write, one word of one register, or an accept (R37 to R42). -/
theorem writeData_cases (off : Offset) (d : Word) (s : State) :
    writeData off d s = s ∨
    (s.status.busy = true ∧ writeData off d s = dropWrite s) ∨
    (s.status.busy = false ∧ ∃ r w, locate off = .fieldWord r w ∧ writeData off d s = writeFieldWord r w d s) ∨
    (s.status.busy = false ∧ locate off = .cmd ∧ writeData off d s = accept d s) := by
  unfold writeData
  cases hb : s.status.busy <;> cases hl : locate off <;> simp

/-- All that a transaction can be: a read or an error that only answers, or a legal write (R43, R45). -/
theorem transact_cases (t : Transaction) (s : State) :
    (∃ r, transact t s = respond r s) ∨
    (∃ off size d, t = .write off size d ∧ legalAccess off size = true ∧
      transact t s = respond (.write .ok) (writeData off d s)) := by
  cases t with
  | read off size =>
    refine .inl ?_
    simp only [transact]
    split <;> exact ⟨_, rfl⟩
  | write off size d =>
    simp only [transact]
    split
    · next h => exact .inr ⟨off, size, d, rfl, h, rfl⟩
    · exact .inl ⟨_, rfl⟩

/-- What a transaction leaves alone, whatever it is: RES, ROM, the working state and the events to come (R40, R45). -/
theorem transact_frame (t : Transaction) (s : State) :
    (transact t s).res = s.res ∧ (transact t s).rom = s.rom ∧ (transact t s).staged = s.staged ∧
    (transact t s).work = s.work ∧ (transact t s).port = s.port ∧ (transact t s).freeIdx = s.freeIdx := by
  rcases transact_cases t s with ⟨r, h⟩ | ⟨off, size, d, _, _, h⟩
  · simp [h]
  · rcases writeData_cases off d s with e | ⟨_, e⟩ | ⟨_, r, w, _, e⟩ | ⟨_, _, e⟩ <;> simp [h, e]

end Sys2Proof.Machine
end

