-- ==== Sys2Proof/Laws/Commands.lean ====
section
/-! SUPPORT. How a command's completion and its failure follow from the result its meaning stages (10_state.md R29). -/

namespace Sys2Proof.Safety

open Sys2Proof.Machine

/-- A command whose meaning stages writes completes with the registers and the RES those writes leave. -/
theorem completes_of_writes {s : State} {i : Instr} {l : List (Reg × Elem)} {res : Option Word} {R : Reg → Elem}
    {w : Word} {b : WorkBuffers} (h : exec i s = complete s (.writes l res) b) (hR : ∀ r, readReg (writeRegs l s.f) r = R r)
    (hw : res.getD s.res = w) : Completes i s R w :=
  ⟨_, h, hR, hw, rfl, rfl, rfl, rfl, rfl, rfl⟩

/-- A command whose meaning stages one register write. -/
theorem completes_of_stageF {s : State} {i : Instr} {fd : Reg} {v : Elem} {b : WorkBuffers}
    (h : exec i s = complete s (stageF fd v) b) :
    Completes i s (withReg s fd v) s.res :=
  completes_of_writes h (fun r => readReg_writeReg s.f fd r v) rfl

/-- A command whose meaning stages a point write. -/
theorem completes_of_stageP {s : State} {i : Instr} {pd : Reg} {p : Point} {b : WorkBuffers}
    (h : exec i s = complete s (stageP pd p) b) :
    Completes i s (withPoint s pd p) s.res :=
  completes_of_writes h (fun r => readReg_writePoint s.f pd r p) rfl

/-- A command whose meaning stages RES. -/
theorem completes_of_stageRes {s : State} {i : Instr} {w : Word} {b : WorkBuffers}
    (h : exec i s = complete s (stageRes w) b) :
    Completes i s (kept s) w :=
  completes_of_writes h (fun _ => rfl) rfl

/-- A command whose meaning raises an error fails with it. -/
theorem fails_of_error {s : State} {i : Instr} {e : CmdError} {b : WorkBuffers}
    (h : exec i s = complete s (.error e) b) : Fails i s e :=
  ⟨_, h, rfl, rfl, rfl, rfl, rfl, rfl, rfl, rfl⟩

/-- One more step of a run whose first step answers. -/
theorem run_succ {k : Nat} {s t : State} (h : step s = .next t) : run (k + 1) s = run k t := by
  rw [run, h]

/-- A run of `a + b` steps is a run of `a`, then of `b`. -/
theorem run_add {a b : Nat} {s t : State} (h : run a s = .next t) : run (a + b) s = run b t := by
  induction a generalizing s with
  | zero => cases h; rw [Nat.zero_add]
  | succ a ih =>
    rw [show a + 1 + b = (a + b) + 1 by omega, run]
    rw [run] at h
    cases hs : step s with
    | next u => rw [hs] at h; exact ih h
    | fault r => rw [hs] at h; cases h
    | refused r => rw [hs] at h; cases h

/-- The host's run, one step of it, for each answer of the step. -/
theorem core_run_next (M : Host.Core) (k : Nat) (s t : M.State) (h : M.step s = .next t) :
    M.run (k + 1) s = M.run k t := by rw [Host.Core.run, h]

theorem core_run_refused (M : Host.Core) (k : Nat) (s : M.State) (r : M.Refusal) (h : M.step s = .refused r) :
    M.run (k + 1) s = .refused r := by rw [Host.Core.run, h]

/-- The run of the model is the host's run of `core`. -/
theorem run_eq_core_run (k : Nat) (s : State) : run k s = Host.Core.run Sys2Proof.core k s := by
  induction k generalizing s with
  | zero => rfl
  | succ k ih =>
    cases hs : step s with
    | next t => exact (run_succ hs).trans ((ih t).trans (core_run_next Sys2Proof.core k s t hs).symm)
    | fault r => nomatch r
    | refused r =>
      have h : run (k + 1) s = .refused r := by simp only [run, hs]
      exact h.trans (core_run_refused Sys2Proof.core k s r hs).symm

end Sys2Proof.Safety
end

