-- ==== Sys2Proof/Laws/Encoding.lean ====
section
/-! SUPPORT. The fields of a command word and the word of its fields (30_encoding.md R51). -/

namespace Sys2Proof

/-- The fields of a word written from fields are those fields: every field stands at its own place (R51). -/
theorem fieldsOf_wordOf (c : Fields) : fieldsOf (wordOf c) = c := by
  rcases c with ⟨opc, rd, ra, rb, imm, rsv⟩
  simp only [fieldsOf, wordOf, Fields.mk.injEq]
  refine ⟨?_, ?_, ?_, ?_, ?_, ?_⟩ <;>
  · apply BitVec.eq_of_getLsbD_eq
    intro k hk
    simp only [BitVec.getLsbD_extractLsb', BitVec.getLsbD_append]
    grind

/-- A word is the word of its fields: the fields leave no bit out (R51). -/
theorem wordOf_fieldsOf (w : Word) : wordOf (fieldsOf w) = w := by
  apply BitVec.eq_of_getLsbD_eq
  intro k hk
  simp only [wordOf, fieldsOf, BitVec.getLsbD_extractLsb', BitVec.getLsbD_append]
  grind

/-- All that a decoded word can be: RSV is 0, a row of the map has its opcode, the row's checks pass, and the command is
the row's, made of the word's fields (R57). -/
theorem decode_ok {w : Word} {i : Instr} (h : decode w = .ok i) :
    (fieldsOf w).rsv = 0 ∧ ∃ row ∈ opcodeMap, row.opc = (fieldsOf w).opc ∧ rowOf (fieldsOf w).opc = some row ∧
      checkFields row (fieldsOf w) = none ∧ i = build row.mnemonic (fieldsOf w) := by
  unfold decode at h
  simp only at h
  split at h
  · cases h
  · next h0 =>
    split at h
    · cases h
    · next row hr =>
      split at h
      · cases h
      · next hc =>
        cases h
        exact ⟨by simpa using h0, row, List.mem_of_find?_eq_some hr, by simpa using List.find?_some hr, hr, hc, rfl⟩

end Sys2Proof
end

