-- ==== Sys2Proof/Laws/PerInstr.lean ====
section
/-! SUPPORT. Statements about every command as syntax, one lemma per constructor. -/

namespace Sys2Proof.Laws

/-- A command's word has RSV 0 and an opcode of the map (R55, R56). -/
def EncodeReserved.Statement (i : Instr) : Prop :=
  (fieldsOf (encode i)).rsv = 0 ∧ (rowOf (fieldsOf (encode i)).opc).isSome = true

theorem EncodeReserved.fmov (fd fa : Reg) : EncodeReserved.Statement (.fmov fd fa) := by
  rw [EncodeReserved.Statement, encode, fieldsOf_wordOf]; exact ⟨rfl, rfl⟩

theorem EncodeReserved.ldc (fd : Reg) (sel : BitVec 8) : EncodeReserved.Statement (.ldc fd sel) := by
  rw [EncodeReserved.Statement, encode, fieldsOf_wordOf]; exact ⟨rfl, rfl⟩

theorem EncodeReserved.getbit (fa : Reg) (k : BitVec 8) : EncodeReserved.Statement (.getbit fa k) := by
  rw [EncodeReserved.Statement, encode, fieldsOf_wordOf]; exact ⟨rfl, rfl⟩

theorem EncodeReserved.clrbit (fd : Reg) (k : BitVec 8) : EncodeReserved.Statement (.clrbit fd k) := by
  rw [EncodeReserved.Statement, encode, fieldsOf_wordOf]; exact ⟨rfl, rfl⟩

theorem EncodeReserved.iszero (fa : Reg) : EncodeReserved.Statement (.iszero fa) := by
  rw [EncodeReserved.Statement, encode, fieldsOf_wordOf]; exact ⟨rfl, rfl⟩

theorem EncodeReserved.eq (fa fb : Reg) : EncodeReserved.Statement (.eq fa fb) := by
  rw [EncodeReserved.Statement, encode, fieldsOf_wordOf]; exact ⟨rfl, rfl⟩

theorem EncodeReserved.deg (fa : Reg) : EncodeReserved.Statement (.deg fa) := by
  rw [EncodeReserved.Statement, encode, fieldsOf_wordOf]; exact ⟨rfl, rfl⟩

theorem EncodeReserved.fadd (fd fa fb : Reg) : EncodeReserved.Statement (.fadd fd fa fb) := by
  rw [EncodeReserved.Statement, encode, fieldsOf_wordOf]; exact ⟨rfl, rfl⟩

theorem EncodeReserved.finc (fd fa : Reg) : EncodeReserved.Statement (.finc fd fa) := by
  rw [EncodeReserved.Statement, encode, fieldsOf_wordOf]; exact ⟨rfl, rfl⟩

theorem EncodeReserved.fmul (fd fa fb : Reg) : EncodeReserved.Statement (.fmul fd fa fb) := by
  rw [EncodeReserved.Statement, encode, fieldsOf_wordOf]; exact ⟨rfl, rfl⟩

theorem EncodeReserved.finv (fd fa : Reg) : EncodeReserved.Statement (.finv fd fa) := by
  rw [EncodeReserved.Statement, encode, fieldsOf_wordOf]; exact ⟨rfl, rfl⟩

theorem EncodeReserved.pisid (pa : Reg) : EncodeReserved.Statement (.pisid pa) := by
  rw [EncodeReserved.Statement, encode, fieldsOf_wordOf]; exact ⟨rfl, rfl⟩

theorem EncodeReserved.ponc (pa : Reg) : EncodeReserved.Statement (.ponc pa) := by
  rw [EncodeReserved.Statement, encode, fieldsOf_wordOf]; exact ⟨rfl, rfl⟩

theorem EncodeReserved.pdbl (pd pa : Reg) : EncodeReserved.Statement (.pdbl pd pa) := by
  rw [EncodeReserved.Statement, encode, fieldsOf_wordOf]; exact ⟨rfl, rfl⟩

theorem EncodeReserved.padd (pd pa pb : Reg) : EncodeReserved.Statement (.padd pd pa pb) := by
  rw [EncodeReserved.Statement, encode, fieldsOf_wordOf]; exact ⟨rfl, rfl⟩

theorem EncodeReserved.pmul (pd pa fk : Reg) : EncodeReserved.Statement (.pmul pd pa fk) := by
  rw [EncodeReserved.Statement, encode, fieldsOf_wordOf]; exact ⟨rfl, rfl⟩

end Sys2Proof.Laws
end

