-- ==== Sys2Proof/Laws/Poly.lean ====
section
/-! SUPPORT. Values read as polynomials over GF(2) (00_scope.md R9, R10): coefficients, sums, shifts, widths. -/

namespace Sys2Proof.Safety

open Polynomial Sys2Proof.Machine

/-- The coefficient of `x^k` is bit `k` (R9). -/
theorem coeff_polyOf {n : Nat} (v : BitVec n) (k : Nat) : (polyOf v).coeff k = if v.getLsbD k then 1 else 0 := by
  unfold polyOf
  rw [finsetSum_coeff]
  have h : ∀ i ∈ Finset.range n, (if v.getLsbD i then (X : (ZMod 2)[X]) ^ i else 0).coeff k =
      if i = k then (if v.getLsbD k then 1 else 0) else 0 := by
    intro i _
    by_cases hik : i = k
    · subst hik; by_cases hb : v.getLsbD i <;> simp [hb]
    · by_cases hb : v.getLsbD i <;> simp [hb, hik, coeff_X_pow, Ne.symm hik]
  rw [Finset.sum_congr rfl h, Finset.sum_ite_eq' (Finset.range n) k]
  by_cases hk : k < n
  · simp [hk]
  · simp [hk, BitVec.getLsbD_of_ge v k (by omega)]

/-- A value is its polynomial. -/
theorem polyOf_injective {n : Nat} {v w : BitVec n} (h : polyOf v = polyOf w) : v = w := by
  apply BitVec.eq_of_getLsbD_eq
  intro k _
  have := congrArg (fun p => p.coeff k) h
  simp only [coeff_polyOf] at this
  cases hv : v.getLsbD k <;> cases hw : w.getLsbD k <;> simp_all

/-- Exclusive or is addition in GF(2)[x] (R10). -/
theorem polyOf_xor {n : Nat} (v w : BitVec n) : polyOf (v ^^^ w) = polyOf v + polyOf w := by
  ext k
  rw [coeff_add, coeff_polyOf, coeff_polyOf, coeff_polyOf, BitVec.getLsbD_xor]
  have h2 : (0 : ZMod 2) = 1 + 1 := by decide
  cases v.getLsbD k <;> cases w.getLsbD k <;> simp [h2]

/-- The zero value is the zero polynomial. -/
@[simp] theorem polyOf_zero (n : Nat) : polyOf (0 : BitVec n) = 0 := by
  ext k; simp [coeff_polyOf]

/-- A polynomial keeps below the width of its value. -/
theorem degree_polyOf_lt {n : Nat} (v : BitVec n) : (polyOf v).degree < n := by
  rw [degree_lt_iff_coeff_zero]
  intro m hm
  rw [coeff_polyOf, BitVec.getLsbD_of_ge v m hm]
  simp

/-- Widening a value keeps its polynomial (`zext`, R10). -/
theorem polyOf_setWidth {n m : Nat} (v : BitVec n) (h : n ≤ m) : polyOf (v.setWidth m) = polyOf v := by
  ext k
  rw [coeff_polyOf, coeff_polyOf, BitVec.getLsbD_setWidth]
  by_cases hk : k < m
  · simp [hk]
  · simp [hk, BitVec.getLsbD_of_ge v k (by omega)]

/-- A shift that loses no bit is multiplication by a power of `x` (R67). -/
theorem polyOf_shl (v : Buf) (s : Nat) (h : ∀ k, 192 ≤ k + s → v.getLsbD k = false) :
    polyOf (shl v s) = polyOf v * X ^ s := by
  ext k
  rw [coeff_polyOf, coeff_mul_X_pow', coeff_polyOf]
  unfold shl
  rw [BitVec.getLsbD_shiftLeft]
  by_cases hs : s ≤ k
  · by_cases hk : k < 192
    · simp [hs, hk, Nat.not_lt.mpr hs]
    · simp [hs, hk, h (k - s) (by omega)]
  · simp [hs, Nat.lt_of_not_le hs]

end Sys2Proof.Safety
end

