-- ==== Sys2Proof/Laws/Working.lean ====
section
/-! SUPPORT. What each function of the pseudocode can write in the working buffers, said once (00_scope.md R13): the products and the inversion leave `lam`, the points and the scalar counter alone, the point functions the point `R`. -/

namespace Sys2Proof.Machine

section Mul

variable (f : Buf) (n : Nat) (x y : Elem) (w : WorkBuffers)

@[simp] theorem workMul_acc : (workMul f n x y w).acc = (mulLoop f x y 162).acc := rfl
@[simp] theorem workMul_t : (workMul f n x y w).t = (mulLoop f x y 162).t := rfl
@[simp] theorem workMul_u : (workMul f n x y w).u = w.u := rfl
@[simp] theorem workMul_v : (workMul f n x y w).v = w.v := rfl
@[simp] theorem workMul_g : (workMul f n x y w).g = w.g := rfl
@[simp] theorem workMul_z : (workMul f n x y w).z = w.z := rfl
@[simp] theorem workMul_lam : (workMul f n x y w).lam = w.lam := rfl
@[simp] theorem workMul_rPoint : (workMul f n x y w).rPoint = w.rPoint := rfl
@[simp] theorem workMul_qPoint : (workMul f n x y w).qPoint = w.qPoint := rfl
@[simp] theorem workMul_invCounter : (workMul f n x y w).invCounter = w.invCounter := rfl
@[simp] theorem workMul_scalarCounter : (workMul f n x y w).scalarCounter = w.scalarCounter := rfl

end Mul

section Lam

variable (v : Elem) (w : WorkBuffers)

@[simp] theorem workLam_acc : (workLam v w).acc = w.acc := rfl
@[simp] theorem workLam_t : (workLam v w).t = w.t := rfl
@[simp] theorem workLam_u : (workLam v w).u = w.u := rfl
@[simp] theorem workLam_v : (workLam v w).v = w.v := rfl
@[simp] theorem workLam_g : (workLam v w).g = w.g := rfl
@[simp] theorem workLam_z : (workLam v w).z = w.z := rfl
@[simp] theorem workLam_lam : (workLam v w).lam = toBuf v := rfl
@[simp] theorem workLam_rPoint : (workLam v w).rPoint = w.rPoint := rfl
@[simp] theorem workLam_qPoint : (workLam v w).qPoint = w.qPoint := rfl
@[simp] theorem workLam_mulCounter : (workLam v w).mulCounter = w.mulCounter := rfl
@[simp] theorem workLam_invCounter : (workLam v w).invCounter = w.invCounter := rfl
@[simp] theorem workLam_scalarCounter : (workLam v w).scalarCounter = w.scalarCounter := rfl

end Lam

/-- `gf_inv` of zero assigns nothing (R78). -/
@[simp] theorem workInv_zero (f : Buf) (n : Nat) (w : WorkBuffers) : workInv f n 0 w = w := by simp [workInv]

/-- All that `gf_inv` can write: its two pairs and its counter (R78). -/
theorem workInv_frame (f : Buf) (n : Nat) (x : Elem) (w : WorkBuffers) :
    ∃ u v g z i, workInv f n x w = { w with u := u, v := v, g := g, z := z, invCounter := i } := by
  simp only [workInv]
  split_ifs
  · exact ⟨w.u, w.v, w.g, w.z, w.invCounter, rfl⟩
  · exact ⟨_, _, _, _, _, rfl⟩
  · exact ⟨_, _, _, _, _, rfl⟩

@[simp] theorem workInv_rPoint (f : Buf) (n : Nat) (x : Elem) (w : WorkBuffers) :
    (workInv f n x w).rPoint = w.rPoint := by
  obtain ⟨_, _, _, _, _, h⟩ := workInv_frame f n x w; rw [h]

@[simp] theorem workInv_qPoint (f : Buf) (n : Nat) (x : Elem) (w : WorkBuffers) :
    (workInv f n x w).qPoint = w.qPoint := by
  obtain ⟨_, _, _, _, _, h⟩ := workInv_frame f n x w; rw [h]

@[simp] theorem workInv_scalarCounter (f : Buf) (n : Nat) (x : Elem) (w : WorkBuffers) :
    (workInv f n x w).scalarCounter = w.scalarCounter := by
  obtain ⟨_, _, _, _, _, h⟩ := workInv_frame f n x w; rw [h]

/-- What the end of `pt_double` leaves alone, in either order of its products (R87). -/
@[simp] theorem workDoubleY_frame (c : Curve) (n : Nat) (p : Point) (lam : Elem) (w : WorkBuffers) :
    (workDoubleY c n p lam w).lam = w.lam ∧ (workDoubleY c n p lam w).rPoint = w.rPoint ∧
      (workDoubleY c n p lam w).qPoint = w.qPoint ∧ (workDoubleY c n p lam w).scalarCounter = w.scalarCounter := by
  unfold workDoubleY
  cases Config.doubleSquaresFirst <;> exact ⟨rfl, rfl, rfl, rfl⟩

/-- `pt_double` leaves the points and the scalar counter alone (R87). -/
theorem workDouble_frame (c : Curve) (n : Nat) (p : Point) (w : WorkBuffers) :
    (workDouble c n p w).rPoint = w.rPoint ∧ (workDouble c n p w).qPoint = w.qPoint ∧
      (workDouble c n p w).scalarCounter = w.scalarCounter := by
  simp only [workDouble]
  split_ifs <;> simp

/-- `pt_double` of a nonzero `x` leaves its `lam` (R87). -/
theorem workDouble_lam (c : Curve) (n : Nat) (p : Point) (w : WorkBuffers) (hx : p.x ≠ 0) :
    (workDouble c n p w).lam = toBuf (doubleLam c p) := by
  simp only [workDouble]
  rw [if_neg hx]
  simp

/-- What the general case of `pt_add` leaves alone, and its `lam` (R88). -/
theorem workAddGeneral_frame (c : Curve) (n : Nat) (p q : Point) (w : WorkBuffers) :
    (workAddGeneral c n p q w).rPoint = w.rPoint ∧ (workAddGeneral c n p q w).scalarCounter = w.scalarCounter ∧
      (workAddGeneral c n p q w).lam = toBuf (addLam c p q) := by
  simp [workAddGeneral]

/-- `pt_add` leaves the point `R` and the scalar counter alone (R88). -/
theorem workAdd_frame (c : Curve) (n : Nat) (p q : Point) (w : WorkBuffers) :
    (workAdd c n p q w).rPoint = w.rPoint ∧ (workAdd c n p q w).scalarCounter = w.scalarCounter := by
  simp only [workAdd, workAddBody]
  split_ifs <;> simp [workAddGeneral_frame, workDouble_frame]

/-- One iteration of the scalar loop leaves the new `R` in the buffers (R95). -/
@[simp] theorem workScalarStep_rPoint (c : Curve) (n : Nat) (p : Point) (bit : Bool) (r : Point) (w : WorkBuffers) :
    (workScalarStep c n p bit r w).rPoint = toWork (scalarStep c p bit r) := by
  cases bit <;> rfl

end Sys2Proof.Machine
end

