-- ==== Sys2Proof/Tests/Slice0.lean ====
section
/-! SUPPORT. Tests: the checks of WellFormed, words written out from 30_encoding.md, vectors of 95_test_vectors.md, and a witness of every statement's hypotheses. -/

set_option Elab.async false

namespace Sys2Proof.Tests

open Sys2Proof.Machine Sys2Proof.Safety

/-! Helpers: a small state, one command word run on it, and one field of what comes out. -/

/-- The register file with F0 to F3 as given and the others 0. -/
def regs (a b c d : Elem) : Vector Elem 16 :=
  writeRegs [(0, a), (1, b), (2, c), (3, d)] (Vector.replicate 16 0)

def gx : Elem := 0x2FE13C0537BBC11ACAA07D793DE4E6D5E5C94EEE8
def gy : Elem := 0x289070FB05D38FF58321F2E800536D538CCDAA3D9
def order : Elem := 0x4000000000000000000020108A2E0CC0D99F8A5EF

/-- The command word `w` run as the next command of an idle block with those registers. -/
def after (f : Vector Elem 16) (w : Nat) : State :=
  match step (State.withFetchWord { State.reset with f := f } 32 w) with
  | .next t => t
  | .fault r => nomatch r
  | .refused _ => State.reset

def reg (t : State) (r : Reg) : Elem := readReg t.f r

/-- Reset with those events to come. -/
def withPort (es : List PortEvent) : State := { State.reset with port := es }

/-- Reset, then `FINC F1, F1` accepted and not yet committed. -/
def busy (es : List PortEvent) : State := { accept 0x00001111 State.reset with port := es }

/-! WellFormed refuses (R53, R54). -/

theorem test_wf_ldc_selector : Instr.wellFormed (.ldc 0 6) = false := by decide
theorem test_wf_pisid_odd : Instr.wellFormed (.pisid 3) = false := by decide
theorem test_wf_ponc_odd : Instr.wellFormed (.ponc 15) = false := by decide
theorem test_wf_pdbl_odd_destination : Instr.wellFormed (.pdbl 3 0) = false := by decide
theorem test_wf_pdbl_odd_source : Instr.wellFormed (.pdbl 0 3) = false := by decide
theorem test_wf_padd_odd_destination : Instr.wellFormed (.padd 1 0 2) = false := by decide
theorem test_wf_padd_odd_first : Instr.wellFormed (.padd 0 1 2) = false := by decide
theorem test_wf_padd_odd_second : Instr.wellFormed (.padd 0 2 1) = false := by decide
theorem test_wf_pmul_odd_destination : Instr.wellFormed (.pmul 1 0 0) = false := by decide
theorem test_wf_pmul_odd_source : Instr.wellFormed (.pmul 0 1 0) = false := by decide
theorem test_wf_pmul_odd_scalar_is_good : Instr.wellFormed (.pmul 0 0 1) = true := by decide

/-! Decoding, words as the spec writes them (40, 41, 42, 43: the Encoding and Example lines; 95 L2-1). -/

theorem test_decode_fmov : decodeTableWord 32 0x00002501 = some (.fmov 5 2) := by decide +kernel
theorem test_decode_ldc : decodeTableWord 32 0x00300002 = some (.ldc 0 3) := by decide +kernel
theorem test_decode_getbit : decodeTableWord 32 0x0A200003 = some (.getbit 0 162) := by decide +kernel
theorem test_decode_clrbit : decodeTableWord 32 0x00300004 = some (.clrbit 0 3) := by decide +kernel
theorem test_decode_iszero : decodeTableWord 32 0x00007005 = some (.iszero 7) := by decide +kernel
theorem test_decode_eq : decodeTableWord 32 0x00050006 = some (.eq 0 5) := by decide +kernel
theorem test_decode_deg : decodeTableWord 32 0x00001007 = some (.deg 1) := by decide +kernel
theorem test_decode_fadd : decodeTableWord 32 0x00010210 = some (.fadd 2 0 1) := by decide +kernel
theorem test_decode_finc : decodeTableWord 32 0x00000411 = some (.finc 4 0) := by decide +kernel
theorem test_decode_fmul : decodeTableWord 32 0x00010212 = some (.fmul 2 0 1) := by decide +kernel
theorem test_decode_finv : decodeTableWord 32 0x00007313 = some (.finv 3 7) := by decide +kernel
theorem test_decode_pisid : decodeTableWord 32 0x00004020 = some (.pisid 4) := by decide +kernel
theorem test_decode_ponc : decodeTableWord 32 0x00002021 = some (.ponc 2) := by decide +kernel
theorem test_decode_pdbl : decodeTableWord 32 0x00000222 = some (.pdbl 2 0) := by decide +kernel
theorem test_decode_padd : decodeTableWord 32 0x00020423 = some (.padd 4 0 2) := by decide +kernel
theorem test_decode_pmul : decodeTableWord 32 0x00080630 = some (.pmul 6 0 8) := by decide +kernel

/-! The Illegal words of 95 L2-1. -/

theorem test_illegal_zero_word : decode 0x00000000 = .error .unknownOpcode := by decide +kernel
theorem test_illegal_rsv : decode 0x10000001 = .error .reservedBits := by decide +kernel
theorem test_illegal_fmov_rb : decode 0x00012501 = .error .mustBeZero := by decide +kernel
theorem test_illegal_pdbl_odd_rd : decode 0x00000322 = .error .oddPoint := by decide +kernel
theorem test_illegal_pdbl_odd_ra : decode 0x00003022 = .error .oddPoint := by decide +kernel
theorem test_illegal_ldc_selector : decode 0x00600002 = .error .badSelector := by decide +kernel
theorem test_illegal_getbit_rb : decode 0x0C810003 = .error .mustBeZero := by decide +kernel
theorem test_illegal_opc_08 : decode 0x00000008 = .error .unknownOpcode := by decide +kernel
theorem test_illegal_opc_ff : decode 0x000000FF = .error .unknownOpcode := by decide +kernel

/-! One command each on a small state: 95 L2-3 to L2-6, or the corner case its rule names. -/

theorem test_fmov : (reg (after (regs gx 0 0 0) 0x00000501) 5) = gx := by decide +kernel
theorem test_fmov_self : (reg (after (regs gx 0 0 0) 0x00000001) 0) = gx := by decide +kernel
theorem test_ldc_gy : (reg (after (regs 0 0 0 0) 0x00400202) 2) = gy := by decide +kernel
theorem test_ldc_n : (reg (after (regs 0 0 0 0) 0x00500102) 1) = order := by decide +kernel
theorem test_getbit_161 : (after (regs gx 0 0 0) 0x0A100003).res = 1 := by decide +kernel
theorem test_getbit_192 : (statusWord (after (regs gx 0 0 0) 0x0C000003).status) = 0x36 := by decide +kernel
theorem test_clrbit_161 : (reg (after (regs gx 0 0 0) 0x0A100004) 0) = 0xFE13C0537BBC11ACAA07D793DE4E6D5E5C94EEE8 := by decide +kernel
theorem test_clrbit_255 : (statusWord (after (regs gx 0 0 0) 0x0FF00004).status) = 0x36 := by decide +kernel
theorem test_iszero_nonzero : (after (regs gx 0 0 0) 0x00000005).res = 0 := by decide +kernel
theorem test_iszero_zero : (after (regs gx 0 0 0) 0x00007005).res = 1 := by decide +kernel
theorem test_eq_different : (after (regs gx order 0 0) 0x00010006).res = 0 := by decide +kernel
theorem test_eq_same : (after (regs gx order 0 0) 0x00032006).res = 1 := by decide +kernel
theorem test_deg_gx : (after (regs gx order 0 0) 0x00000007).res = 162 := by decide +kernel
theorem test_deg_n : (after (regs gx order 0 0) 0x00001007).res = 163 := by decide +kernel
theorem test_fadd : (reg (after (regs gx gy 0 0) 0x00010210) 2) = 0x7714CFE32684EEF49818F913DB78B866904E4D31 := by decide +kernel
theorem test_finc : (reg (after (regs gx 0 0 0) 0x00000411) 4) = 0x2FE13C0537BBC11ACAA07D793DE4E6D5E5C94EEE9 := by decide +kernel
theorem test_finc_one : (reg (after (regs 1 0 0 0) 0x00000011) 0) = 0 := by decide +kernel
theorem test_fmul : (reg (after (regs gx gy 0 0) 0x00010212) 2) = 0x4D741872162B253D5A381F1F680B47E5C0AD3AA2A := by decide +kernel
theorem test_fmul_reduces : (reg (after (regs 0x2 0x40000000000000000000000000000000000000000 0 0) 0x00010012) 0) = 0xC9 := by decide +kernel
theorem test_finv : (reg (after (regs gx 0 0 0) 0x00000313) 3) = 0x63F514F39F4587684F96C8DD6558E69339A1EFED9 := by decide +kernel
theorem test_finv_zero : (statusWord (after (regs gx 0 0 0) 0x00007313).status) = 0x26 := by decide +kernel
theorem test_pisid_identity : (after (regs 0 0 gx gy) 0x00000020).res = 1 := by decide +kernel
theorem test_pisid_y_only : (after (regs 0 1 gx gy) 0x00000020).res = 0 := by decide +kernel
theorem test_ponc_g : (after (regs gx gy 0 0) 0x00000021).res = 1 := by decide +kernel
theorem test_ponc_gx_gx : (after (regs gx gx 0 0) 0x00000021).res = 0 := by decide +kernel
theorem test_pdbl_x : (reg (after (regs gx gy 0 0) 0x00000222) 2) = 0xCB5CA2738FE300AACFB00B42A77B828D8A5C41EB := by decide +kernel
theorem test_pdbl_in_place_y : (reg (after (regs gx gy 0 0) 0x00000022) 1) = 0x229C79E9AB85F90ACD3D5FA3A696664515EFEFA6B := by decide +kernel
theorem test_padd_x : (reg (after (regs gx gy 0xCB5CA2738FE300AACFB00B42A77B828D8A5C41EB 0x229C79E9AB85F90ACD3D5FA3A696664515EFEFA6B) 0x00020423) 4) = 0x2ACFCFCC9A2AF8E3F2828024F820033DB20F69520 := by decide +kernel
theorem test_padd_off_curve_y : (reg (after (regs gx gy 1 1) 0x00020423) 5) = 0x65063E9F588F1913F699B03C77C9289D7B48A5BE8 := by decide +kernel
theorem test_pmul_three_x : (reg (after (regs gx gy 3 0) 0x00020630) 6) = 0x2ACFCFCC9A2AF8E3F2828024F820033DB20F69520 := by decide +kernel
theorem test_pmul_four_y : (reg (after (regs gx gy 4 0) 0x00020030) 1) = 0x510F96CBC41CF3BDFA0157E9E8FEE2C605791DB0D := by decide +kernel

/-! The working buffers (R13): the results of L2-4 and L2-6 stand in `acc`, `g` and `R`. -/

theorem test_work_fmul_acc : (after (regs gx gy 0 0) 0x00010212).work.acc = 0x4D741872162B253D5A381F1F680B47E5C0AD3AA2A := by decide +kernel
theorem test_work_finv_u : (after (regs gx 0 0 0) 0x00000313).work.u = 1 := by decide +kernel
theorem test_work_finv_g : (after (regs gx 0 0 0) 0x00000313).work.g = 0x63F514F39F4587684F96C8DD6558E69339A1EFED9 := by decide +kernel
theorem test_work_pmul_r : (after (regs gx gy 3 0) 0x00020630).work.rPoint.x = 0x2ACFCFCC9A2AF8E3F2828024F820033DB20F69520 := by decide +kernel
theorem test_work_fmov_keeps : (after (regs gx 0 0 0) 0x00000501).work = State.reset.work := by decide +kernel

/-! The register window: 95 L2-2. -/

theorem test_window_f5_word5 :
    (match step (withPort [.bus (.write 0x0B4 4 0xFFFFFFFF)]) with
      | .next t => reg t 5
      | _ => 0) = 0x70000000000000000000000000000000000000000 := by decide +kernel

theorem test_window_gx_word0 : readData { State.reset with f := regs gx 0 0 0 } 0x000 = 0x5C94EEE8 := by decide +kernel
theorem test_window_gx_word5 : readData { State.reset with f := regs gx 0 0 0 } 0x014 = 0x00000002 := by decide +kernel
theorem test_window_busy_status : readData (dropWrite (busy [])) 0x204 = 0x09 := by decide +kernel
theorem test_window_misaligned :
    (transact (.read 0x002 4) (withPort [])).hostResp = some (.read 0 .error) := by decide +kernel
theorem test_window_halfword :
    (transact (.write 0x000 2 0xBEEF) (withPort [])).hostResp = some (.write .error) := by decide +kernel

/-- 95 L2-2: a word dropped while busy leaves STATUS 0x0A after an error-free commit. -/
theorem test_window_dropped_write :
    (match coreTurn (dropWrite (busy [])) with
      | .next t => statusWord t.status
      | _ => 0) = 0x0A := by decide +kernel

/-! The assembler: R61 and R62, with the words of the Example lines. -/

theorem test_asm_pdbl : assembleWords ['P', 'D', 'B', 'L', ' ', ' ', 'P', '2', ',', ' ', 'P', '0'] = some [0x00000222] := by
  decide +kernel

theorem test_asm_ldg : assemble (.pseudo .LDG) [.p 2] = some [.ldc 2 3, .ldc 3 4] := by decide

theorem test_asm_odd_point : assembleWords ['P', 'I', 'S', 'I', 'D', ' ', 'P', '3'] = none := by decide +kernel

/-! Witnesses: for every statement with hypotheses, values that meet all of them. -/

theorem witness_DecodeOfEncodeIsTheCommand : Instr.wellFormed (.padd 14 0 2) = true := by decide

theorem witness_DecodedWordIsItsEncoding : decode 0x00080630 = .ok (.pmul 6 0 8) := by decide +kernel

theorem witness_NonzeroMustBeZeroFieldIsIllegal_rsv : (fieldsOf 0x80000001).rsv ≠ 0 := by decide

theorem witness_NonzeroMustBeZeroFieldIsIllegal_field :
    ∃ row, rowOf (fieldsOf 0x00012501).opc = some row ∧ row.rb = .zero ∧ (fieldsOf 0x00012501).rb ≠ 0 :=
  ⟨⟨0x01, .FMOV, .reg, .reg, .zero, .zero⟩, by decide⟩

theorem witness_OddPointFieldIsIllegal :
    rowOf (fieldsOf 0x00000322).opc = some ⟨0x22, .PDBL, .point, .point, .zero, .zero⟩ ∧
      (fieldsOf 0x00000322).rd.toNat % 2 = 1 := by decide

theorem witness_IllegalWordCommitsOnlyItsErrorCode :
    (withPort []).status.busy = false ∧ decode 0x00000000 = .error .unknownOpcode := by decide +kernel

/-- The second clause, with WIGN set by a write dropped meanwhile. -/
theorem witness_IllegalWordCommitsOnlyItsErrorCode_busy :
    (dropWrite (accept 0x00000008 (withPort []))).status.busy = true ∧
      decode (dropWrite (accept 0x00000008 (withPort []))).latchWord = .error .unknownOpcode ∧
      (dropWrite (accept 0x00000008 (withPort []))).port = [] := by decide +kernel

theorem witness_IllegalWordCommitsOnlyItsErrorCode_turn :
    (dropWrite (accept 0x00000008 (withPort [.core]))).status.busy = true ∧
      decode (dropWrite (accept 0x00000008 (withPort [.core]))).latchWord = .error .unknownOpcode ∧
      (dropWrite (accept 0x00000008 (withPort [.core]))).port = .core :: [] := by decide +kernel

/-- `CommitIsAllOrNothing`, a command of each kind of commit. -/
theorem witness_CommitIsAllOrNothing :
    (∃ t, exec (.finc 0 0) State.reset = .next t ∧ t.status.err = false) ∧
      ∃ t, exec (.finv 0 0) State.reset = .next t ∧ t.status.err = true := ⟨⟨_, rfl, rfl⟩, ⟨_, rfl, rfl⟩⟩

theorem witness_EveryAcceptedCommandCommits :
    (busy [.bus (.read 0 4), .core]).status.busy = true ∧
      ∀ inFlight, PortEvent.rst inFlight ∉ (busy [.bus (.read 0 4), .core]).port := by
  refine ⟨rfl, fun inFlight h => ?_⟩
  simp [busy] at h

theorem witness_StepRunsTheDecodedCommand_last :
    (busy []).status.busy = true ∧ decode (busy []).latchWord = .ok (.finc 1 1) ∧ (busy []).port = [] := by
  decide +kernel

theorem witness_StepRunsTheDecodedCommand_turn :
    (busy [.core, .core]).status.busy = true ∧ decode (busy [.core, .core]).latchWord = .ok (.finc 1 1) ∧
      (busy [.core, .core]).port = .core :: [.core] := by decide +kernel

theorem witness_CmdWriteAcceptsTheCommand_idle :
    (withPort [.bus (.write 0x200 4 0)]).port = .bus (.write 0x200 4 0) :: [] ∧
      (withPort [.bus (.write 0x200 4 0)]).status.busy = false := by decide

theorem witness_CmdWriteAcceptsTheCommand_busy :
    (busy [.bus (.write 0x200 4 0)]).port = .bus (.write 0x200 4 0) :: [] ∧
      (busy [.bus (.write 0x200 4 0)]).status.busy = true := by decide

/-- `OnlyQueriesWriteRes`, both kinds of command, and `CommandsWriteOnlyTheirDestination`. -/
theorem witness_OnlyQueriesWriteRes_query :
    ∃ t, exec (.deg 0) State.reset = .next t ∧ mnemonicOf (.deg 0) ∈ queries ∧ t.status.err = false :=
  ⟨_, rfl, by decide, rfl⟩

theorem witness_OnlyQueriesWriteRes_truth :
    ∃ t, exec (.getbit 0 191) State.reset = .next t ∧ mnemonicOf (.getbit 0 191) ∈ queries ∧
      mnemonicOf (.getbit 0 191) ≠ .DEG ∧ t.status.err = false :=
  ⟨_, rfl, by decide, by decide, rfl⟩

theorem witness_OnlyQueriesWriteRes_other :
    ∃ t, exec (.finc 0 0) State.reset = .next t ∧ mnemonicOf (.finc 0 0) ∉ queries := ⟨_, rfl, by decide⟩

theorem witness_CommandsWriteOnlyTheirDestination :
    ∃ t, exec (.pdbl 2 0) State.reset = .next t ∧ (4 : Reg) ∉ destinations (.pdbl 2 0) := ⟨_, rfl, by decide⟩

theorem witness_CommandsRaiseOnlyTheirErrors_inverse :
    ∃ t, Instr.wellFormed (.finv 0 1) = true ∧ exec (.finv 0 1) State.reset = .next t ∧
      t.status.ecode = some .zeroInverse := ⟨_, rfl, rfl, by decide +kernel⟩

theorem witness_CommandsRaiseOnlyTheirErrors_index :
    ∃ t, Instr.wellFormed (.clrbit 0 192) = true ∧ exec (.clrbit 0 192) State.reset = .next t ∧
      t.status.ecode = some .bitIndex := ⟨_, rfl, rfl, by decide +kernel⟩

theorem witness_IllFormedTermEndsInIllegalCmd : Instr.wellFormed (.padd 0 2 15) = false := by decide

theorem witness_StepKeepsTheInvariant : ∃ t, MachineInv (busy []) ∧ step (busy []) = .next t :=
  ⟨_, ⟨⟨by decide, by decide⟩, fun _ => ⟨rfl, rfl⟩, fun _ => rfl, by decide⟩, rfl⟩

theorem witness_RomNeverChanges_WorkingBuffersNeverShow : ∃ t, step (busy [.rst none]) = .next t := ⟨_, rfl⟩

theorem witness_ResetStepReachesTheResetState :
    (busy [.rst (some (.read 0 4)), .core]).port = .rst (some (.read 0 4)) :: [.core] := by decide

theorem witness_IdleBlockDoesNothing : (withPort []).status.busy = false ∧ (withPort []).port = [] := by decide

theorem witness_HostCannotDisturbARunningCommand : (busy []).status.busy = true := by decide

theorem witness_FieldWordWriteUpdatesThatWordAlone :
    (withPort [.bus (.write (BitVec.ofNat 12 (0x20 * (15 : Reg).toNat + 4 * 5)) 4 0xFFFFFFFF)]).status.busy = false ∧
      (withPort [.bus (.write (BitVec.ofNat 12 (0x20 * (15 : Reg).toNat + 4 * 5)) 4 0xFFFFFFFF)]).port =
        .bus (.write (BitVec.ofNat 12 (0x20 * (15 : Reg).toNat + 4 * 5)) 4 0xFFFFFFFF) :: [] := by decide

theorem witness_FieldWordReadIsZeroExtended :
    (busy [.bus (.read (BitVec.ofNat 12 (0x20 * (0 : Reg).toNat + 4 * 5)) 4)]).port =
      .bus (.read (BitVec.ofNat 12 (0x20 * (0 : Reg).toNat + 4 * 5)) 4) :: [] := by decide

theorem witness_FieldWordReadIsZeroExtended_busy :
    MachineInv (busy [.bus (.read 0x1F4 4)]) ∧ (busy [.bus (.read 0x1F4 4)]).status.busy = true ∧
      (busy [.bus (.read 0x1F4 4)]).port = .bus (.read (BitVec.ofNat 12 (0x20 * (15 : Reg).toNat + 4 * 5)) 4) :: [] :=
  ⟨⟨⟨by decide, by decide⟩, fun _ => ⟨rfl, rfl⟩, fun _ => rfl, by decide⟩, rfl, by decide⟩

theorem witness_ReadsWhileBusyShowTheValuesBeforeAccept :
    (withPort []).status.busy = false ∧ (0x208 : Offset).toNat % 4 = 0 ∧ (0x204 : Offset).toNat % 4 = 0 := by decide

theorem witness_WorkingBuffersHoldWhatWasAssigned_pdbl :
    (14 : Reg).toNat % 2 = 0 ∧
      gfInv (accept 0 { State.reset with f := regs 1 1 0 0 }).rom.f
        (latchedF (accept 0 { State.reset with f := regs 1 1 0 0 }) 0) = .ok 1 := by decide +kernel

theorem witness_WorkingBuffersHoldWhatWasAssigned_finv :
    latchedF (accept 0 { State.reset with f := regs 1 1 0 0 }) 0 ≠ 0 ∧
      (invLoop 324 (invStart Config.k163.f (latchedF (accept 0 { State.reset with f := regs 1 1 0 0 }) 0))).u = 1 ∧
      latchedF (accept 0 { State.reset with f := regs 1 1 0 0 }) 2 = 0 := by decide +kernel

theorem witness_WorkingBuffersHoldWhatWasAssigned_keeps :
    ∃ t, exec (.deg 15) State.reset = .next t ∧
      mnemonicOf (.deg 15) ∈ [Mnemonic.FMOV, .LDC, .GETBIT, .CLRBIT, .ISZERO, .EQ, .DEG, .FADD, .FINC, .PISID] :=
  ⟨_, rfl, by decide⟩

theorem witness_WorkingBuffersHoldWhatWasAssigned_illFormed :
    ∃ t, Instr.wellFormed (.padd 0 2 15) = false ∧ exec (.padd 0 2 15) State.reset = .next t := ⟨_, by decide, rfl⟩

/-- The points of PONC, PDBL, PADD and PMUL: even registers, with the identity in one and another point in the other. -/
theorem witness_WorkingBuffersHoldWhatWasAssigned_points :
    (0 : Reg).toNat % 2 = 0 ∧ (2 : Reg).toNat % 2 = 0 ∧
      latchedP (accept 0 { State.reset with f := regs 1 1 0 0 }) 0 ≠ ⟨0, 0⟩ ∧
      latchedP (accept 0 { State.reset with f := regs 1 1 0 0 }) 2 = ⟨0, 0⟩ := by decide

theorem witness_WorkingBuffersHoldWhatWasAssigned_scalar :
    (0x3FFFFFFFFFFFFFFFFFFFFFFFFFFFFFFFFFFFFFFFF : Elem).toNat < 2 ^ 162 ∧ (0 : Elem).toNat < 2 ^ 162 := by decide

theorem witness_idle : State.reset.status.busy = false := by decide

theorem witness_SixWordWritesLoadARegister_FincIssuedTwiceRestores : (withPort []).status.busy = false := witness_idle

theorem witness_StatusAndResAreReadOnly :
    (busy [.bus (.read 0x204 4)]).port = .bus (.read 0x204 4) :: [] ∧
      (busy [.bus (.read 0x208 4)]).port = .bus (.read 0x208 4) :: [] ∧
      (busy [.bus (.write 0x204 4 7)]).port = .bus (.write 0x204 4 7) :: [] ∧
      (busy [.bus (.write 0x208 4 7)]).port = .bus (.write 0x208 4 7) :: [] := by decide

theorem witness_CmdTakesEveryWordAndReadsZero :
    (withPort [.bus (.write 0x200 4 0)]).status.busy = false ∧
      (withPort [.bus (.write 0x200 4 0)]).port = .bus (.write 0x200 4 0) :: [] ∧
      (busy [.bus (.read 0x200 4)]).port = .bus (.read 0x200 4) :: [] := by decide

theorem witness_ReservedOffsetsReadZeroIgnoreWrites_slot :
    (0x018 : Offset).toNat % 4 = 0 ∧ (0x018 : Offset).toNat < 0x200 ∧ 0x18 ≤ (0x018 : Offset).toNat % 0x20 ∧
      (0x1FC : Offset).toNat % 4 = 0 ∧ (0x1FC : Offset).toNat < 0x200 ∧ 0x18 ≤ (0x1FC : Offset).toNat % 0x20 ∧
      (busy [.bus (.read 0x018 4)]).port = .bus (.read 0x018 4) :: [] ∧
      (busy [.bus (.write 0x1FC 4 1)]).port = .bus (.write 0x1FC 4 1) :: [] := by decide

theorem witness_ReservedOffsetsReadZeroIgnoreWrites_above :
    (0x20C : Offset).toNat % 4 = 0 ∧ 0x20C ≤ (0x20C : Offset).toNat ∧
      (0xFFC : Offset).toNat % 4 = 0 ∧ 0x20C ≤ (0xFFC : Offset).toNat ∧
      (busy [.bus (.read 0x20C 4)]).port = .bus (.read 0x20C 4) :: [] ∧
      (busy [.bus (.write 0xFFC 4 1)]).port = .bus (.write 0xFFC 4 1) :: [] := by decide

theorem witness_WriteWhileBusyIsDropped_word :
    (busy [.bus (.write 0x1F4 4 1)]).status.busy = true ∧
      (0x1F4 : Offset) = BitVec.ofNat 12 (0x20 * (15 : Reg).toNat + 4 * 5) ∧
      (busy [.bus (.write 0x1F4 4 1)]).port = .bus (.write 0x1F4 4 1) :: [] := by decide

theorem witness_WriteWhileBusyIsDropped_cmd :
    (busy [.bus (.write 0x200 4 1)]).status.busy = true ∧
      (busy [.bus (.write 0x200 4 1)]).port = .bus (.write 0x200 4 1) :: [] := by decide

theorem witness_BadAccessIsAnsweredErrorOnly :
    (1 : Nat) ≠ 4 ∧ (0x202 : Offset).toNat % 4 ≠ 0 ∧
      (busy [.bus (.read 0x202 4)]).port = .bus (.read 0x202 4) :: [] ∧
      (busy [.bus (.write 0x200 1 1)]).port = .bus (.write 0x200 1 1) :: [] := by decide

theorem witness_WindowMapIsExact : (0x1F4 : Offset).toNat % 4 = 0 ∧ locate 0x1F4 = .fieldWord 15 5 := by decide

theorem witness_curve_degree : bitlen Config.k163.f = 164 := by decide +kernel

/-- `GfMulIsTheProductModuloF`, `MultiplyLoopStaysCanonical`, `GfMulRingLaws`: the default `f`. -/
theorem witness_GfMul : ∃ f : Buf, bitlen f = 164 := ⟨_, witness_curve_degree⟩

/-- The element 1 is coprime to every polynomial. -/
theorem witness_InversionLoopGivesTheInverse :
    ∃ (f : Buf) (x : Elem), bitlen f = 164 ∧ IsCoprime (polyOf x) (polyOf f) := by
  refine ⟨Config.k163.f, 1, witness_curve_degree, ?_⟩
  have h : polyOf (1 : Elem) = 1 := by
    unfold polyOf
    rw [Finset.sum_eq_single 0]
    · simp
    · intro i _ hi
      simp [BitVec.getLsbD_one, hi]
    · simp
  rw [h]
  exact isCoprime_one_left

theorem witness_EveryNonzeroElementIsInverted : (2 : Elem) ≠ 0 := by decide

theorem witness_PisidPonc_PointCommands : (14 : Reg).toNat % 2 = 0 ∧ (0 : Reg).toNat % 2 = 0 := by decide

theorem witness_PointAdditionLaws :
    (⟨0, 1⟩ : Point) ≠ ⟨0, 0⟩ ∧ (⟨1, 1⟩ : Point).x ≠ 0 ∧ (⟨0, 1⟩ : Point).x = 0 := by decide

/-- The general cases: a double, two points with one `x`, and a sum. -/
theorem witness_PointAdditionLaws_general :
    gfInv Config.k163.f (⟨1, 1⟩ : Point).x = .ok 1 ∧ (⟨1, 1⟩ : Point).x = (⟨1, 5⟩ : Point).x ∧
      (⟨1, 1⟩ : Point).y ≠ (⟨1, 5⟩ : Point).y ∧ (⟨1, 1⟩ : Point) ≠ ⟨0, 0⟩ ∧ (⟨0, 1⟩ : Point) ≠ ⟨0, 0⟩ ∧
      (⟨1, 1⟩ : Point).x ≠ (⟨0, 1⟩ : Point).x ∧
      gfInv Config.k163.f ((⟨1, 1⟩ : Point).x ^^^ (⟨0, 1⟩ : Point).x) = .ok 1 := by decide +kernel

theorem witness_PointOperationsStayOnTheCurve :
    onCurve Config.k163 ⟨gx, gy⟩ = true ∧ onCurve Config.k163 ⟨0, 1⟩ = true := by decide +kernel

theorem witness_ScalarMultiplyDoublesAndAdds :
    (0x3FFFFFFFFFFFFFFFFFFFFFFFFFFFFFFFFFFFFFFFF : Elem).toNat < 2 ^ 162 := by decide

theorem witness_AssembledCommandsAreWellFormed :
    ∃ is, assembleLine ['L', 'D', 'C', ' ', 'F', '1', ',', ' ', 'N'] = some is ∧ Instr.ldc 1 5 ∈ is :=
  ⟨[.ldc 1 5], by decide +kernel, by decide⟩

theorem witness_FdivExpansionDivides :
    (withPort []).status.busy = false ∧ (2 : Reg) ≠ 0 ∧ readReg ({ withPort [] with f := regs gx gy 0 0 }).f 1 ≠ 0 := by
  decide +kernel

end Sys2Proof.Tests
end

section
/-! PROOFS. The multiply loop computes the product of polynomials modulo `f` (41_field.md R77), and the ring laws that
the field product inherits from it (R2, R83). -/

namespace Sys2Proof.Machine

/-- `bitlen` is the number of binary digits (R66), so that Mathlib's `Nat.size` lemmas speak of it. -/
theorem bitlen_eq_size (v : Buf) : bitlen v = v.toNat.size := by
  unfold bitlen
  split_ifs with h
  · simp [h]
  · have h0 : v.toNat ≠ 0 := fun e => h (BitVec.eq_of_toNat_eq e)
    exact Nat.le_antisymm (Nat.lt_size.mpr (Nat.log2_self_le h0)) (Nat.size_le.mpr Nat.lt_log2_self)

/-- No bit of a value stands at or above its `bitlen`. -/
theorem getLsbD_of_bitlen_le {v : Buf} {k : Nat} (h : bitlen v ≤ k) : v.getLsbD k = false := by
  rw [bitlen_eq_size] at h
  exact Nat.testBit_lt_two_pow (Nat.size_le.mp h)

/-- The bit below the `bitlen` is set. -/
theorem getLsbD_of_bitlen_eq_succ {v : Buf} {k : Nat} (h : bitlen v = k + 1) : v.getLsbD k = true := by
  rw [bitlen_eq_size] at h
  exact Nat.testBit_of_two_pow_le_and_two_pow_add_one_gt (Nat.lt_size.mp (by omega)) (Nat.size_le.mp h.le)

end Sys2Proof.Machine

namespace Sys2Proof.Safety

open Polynomial Sys2Proof.Machine

/-- The value 1 is the polynomial 1. -/
theorem polyOf_one : polyOf (1 : Elem) = 1 := by
  ext k
  rw [coeff_polyOf, coeff_one, BitVec.ofNat_eq_ofNat, BitVec.getLsbD_one]
  simp [eq_comm]

/-- A bound on the degree is a bound on the bits. -/
theorem degree_polyOf_lt_iff {n m : Nat} {v : BitVec n} :
    (polyOf v).degree < m ↔ ∀ k, m ≤ k → v.getLsbD k = false := by
  simp [degree_lt_iff_coeff_zero, coeff_polyOf]

/-- The widening of an element to a working buffer keeps its polynomial (R10). -/
@[simp] theorem polyOf_toBuf (x : Elem) : polyOf (toBuf x) = polyOf x := polyOf_setWidth x (by decide)

/-- The cut to 163 bits keeps the polynomial of a canonical value (R77). -/
theorem polyOf_toElem {v : Buf} (h : (polyOf v).degree < (163 : Nat)) : polyOf (toElem v) = polyOf v := by
  ext k
  rw [coeff_polyOf, coeff_polyOf, toElem, BitVec.getLsbD_setWidth]
  by_cases hk : k < 163
  · simp [hk]
  · simp [hk, degree_polyOf_lt_iff.mp h k (by omega)]

/-- The polynomial of the bits of `y` below `n`: what the first iterations of the multiply loop have used (R77.3). -/
noncomputable def polyBelow (y : Elem) (n : Nat) : (ZMod 2)[X] :=
  ∑ i ∈ Finset.range n, if y.getLsbD i then X ^ i else 0

theorem polyBelow_width (y : Elem) : polyBelow y 163 = polyOf y := rfl

theorem polyBelow_succ (y : Elem) (n : Nat) :
    polyBelow y (n + 1) = polyBelow y n + if y.getLsbD n then X ^ n else 0 := Finset.sum_range_succ _ _

section Modulus

variable {f : Buf} (hf : bitlen f = 164)

include hf

/-- A modulus of `bitlen` 164 has polynomial degree 163 (R2). -/
theorem degree_modulus : (polyOf f).degree = (163 : Nat) := by
  refine le_antisymm (Order.lt_succ_iff.mp ?_) (le_degree_of_ne_zero ?_)
  · exact degree_polyOf_lt_iff.mpr fun k hk => getLsbD_of_bitlen_le (hf.trans_le hk)
  · rw [coeff_polyOf, getLsbD_of_bitlen_eq_succ hf]; decide

theorem monic_modulus : (polyOf f).Monic := by
  rw [Monic, leadingCoeff, natDegree_eq_of_degree_eq_some (degree_modulus hf), coeff_polyOf,
    getLsbD_of_bitlen_eq_succ hf, if_pos rfl]

/-- A remainder modulo `f` is canonical. -/
theorem degree_mod_modulus_lt (p : (ZMod 2)[X]) : (p %ₘ polyOf f).degree < (163 : Nat) :=
  (degree_modByMonic_lt p (monic_modulus hf)).trans_eq (degree_modulus hf)

/-- A canonical value is its own remainder. -/
theorem mod_modulus_of_degree_lt {p : (ZMod 2)[X]} (h : p.degree < (163 : Nat)) : p %ₘ polyOf f = p :=
  (modByMonic_eq_self_iff (monic_modulus hf)).mpr (h.trans_eq (degree_modulus hf).symm)

/-- A factor may be reduced before a product modulo `f` or not. -/
theorem mod_modulus_mul_mod (p q : (ZMod 2)[X]) : (p %ₘ polyOf f * q) %ₘ polyOf f = (p * q) %ₘ polyOf f := by
  rw [mul_modByMonic, mod_modulus_of_degree_lt hf (degree_mod_modulus_lt hf p), ← mul_modByMonic]

/-- One doubling step multiplies `t` by `x` modulo `f` (R77.1, R77.2). -/
theorem polyOf_mulDouble {t : Buf} (ht : (polyOf t).degree < (163 : Nat)) :
    polyOf (mulDouble f t) = (polyOf t * X) %ₘ polyOf f := by
  have bits := degree_polyOf_lt_iff.mp ht
  have hshl : polyOf (shl t 1) = polyOf t * X := by
    rw [polyOf_shl t 1 fun k hk => bits k (by omega), pow_one]
  have hcoeff (k : Nat) (hk : 164 ≤ k) : (shl t 1).getLsbD k = false := by
    simp [shl, bits (k - 1) (by omega)]
  unfold mulDouble
  split_ifs with h
  · have hdeg : (polyOf (shl t 1 ^^^ f)).degree < (163 : Nat) := by
      refine degree_polyOf_lt_iff.mpr fun k hk => ?_
      rw [BitVec.getLsbD_xor]
      obtain rfl | hk' := hk.eq_or_lt
      · rw [h, getLsbD_of_bitlen_eq_succ hf, Bool.xor_self]
      · rw [hcoeff k hk', getLsbD_of_bitlen_le (hf.trans_le hk'), Bool.xor_self]
    rw [← mod_modulus_of_degree_lt hf hdeg, polyOf_xor, hshl, add_modByMonic,
      modByMonic_self (monic_modulus hf), add_zero]
  · have hdeg : (polyOf (shl t 1)).degree < (163 : Nat) := by
      refine degree_polyOf_lt_iff.mpr fun k hk => ?_
      obtain rfl | hk' := hk.eq_or_lt
      · exact Bool.eq_false_of_not_eq_true h
      · exact hcoeff k hk'
    rw [← hshl, mod_modulus_of_degree_lt hf hdeg]

/-- The invariant of the multiply loop: after `n` iterations `t` is `x·X^n` modulo `f`, and `acc` the product of `x` with
the bits of `y` used so far (R77.3). -/
theorem polyOf_mulLoop (x y : Elem) (n : Nat) :
    polyOf (mulLoop f x y n).t = (polyOf x * X ^ n) %ₘ polyOf f ∧
      polyOf (mulLoop f x y n).acc = (polyOf x * polyBelow y (n + 1)) %ₘ polyOf f := by
  induction n with
  | zero =>
    have hx := mod_modulus_of_degree_lt hf (degree_polyOf_lt x)
    refine ⟨by simp [mulLoop, mulStart, hx], ?_⟩
    rw [polyBelow_succ]
    cases h : y.getLsbD 0
    · simpa [mulLoop, mulStart, polyBelow, h, -BitVec.getLsbD_eq_getElem] using polyOf_zero 192
    · simp [mulLoop, mulStart, polyBelow, h, hx, -BitVec.getLsbD_eq_getElem]
  | succ n ih =>
    obtain ⟨iht, ihacc⟩ := ih
    have ht : polyOf (mulDouble f (mulLoop f x y n).t) = (polyOf x * X ^ (n + 1)) %ₘ polyOf f := by
      rw [polyOf_mulDouble hf (iht ▸ degree_mod_modulus_lt hf _), iht, mod_modulus_mul_mod hf, pow_succ,
        mul_assoc]
    refine ⟨ht, ?_⟩
    rw [polyBelow_succ, mul_add, add_modByMonic, ← ihacc, mulLoop, mulStep]
    cases h : y.getLsbD (n + 1)
    · simp
    · simp [polyOf_xor, ht]

/-- `gf_mul` is the product of polynomials modulo `f` (R77.4). -/
theorem polyOf_gfMul (x y : Elem) : polyOf (gfMul f x y) = (polyOf x * polyOf y) %ₘ polyOf f := by
  have hacc := (polyOf_mulLoop hf x y 162).2
  rw [polyBelow_width] at hacc
  rw [gfMul, polyOf_toElem (hacc ▸ degree_mod_modulus_lt hf _), hacc]

/-! The ring laws, each that of the polynomial ring read through `polyOf_gfMul` (R2, R83). -/

theorem gfMul_comm (x y : Elem) : gfMul f x y = gfMul f y x :=
  polyOf_injective (by rw [polyOf_gfMul hf, polyOf_gfMul hf, mul_comm])

theorem gfMul_assoc (x y z : Elem) : gfMul f (gfMul f x y) z = gfMul f x (gfMul f y z) := by
  apply polyOf_injective
  rw [gfMul_comm hf x (gfMul f y z)]
  simp only [polyOf_gfMul hf, mod_modulus_mul_mod hf]
  rw [mul_assoc, mul_comm]

theorem gfMul_gfAdd (x y z : Elem) : gfMul f x (gfAdd y z) = gfAdd (gfMul f x y) (gfMul f x z) := by
  apply polyOf_injective
  unfold gfAdd
  rw [polyOf_xor, polyOf_gfMul hf, polyOf_gfMul hf, polyOf_gfMul hf, polyOf_xor, mul_add, add_modByMonic]

theorem gfMul_one (x : Elem) : gfMul f x 1 = x := by
  apply polyOf_injective
  rw [polyOf_gfMul hf, polyOf_one, mul_one, mod_modulus_of_degree_lt hf (degree_polyOf_lt x)]

theorem gfMul_zero (x : Elem) : gfMul f x 0 = 0 := by
  apply polyOf_injective
  rw [polyOf_gfMul hf, polyOf_zero, mul_zero, zero_modByMonic]

end Modulus

/-- Settles O49: each law is that of the polynomial ring, read through `polyOf_gfMul`. -/
theorem gfMulRingLaws : Obligations.GfMulRingLaws := fun _ x y z hf =>
  ⟨gfMul_comm hf x y, gfMul_assoc hf x y z, gfMul_gfAdd hf x y z, gfMul_one hf x, gfMul_zero hf x⟩

end Sys2Proof.Safety
end

section
/-! PROOFS. What every command leaves in the working buffers (00_scope.md R13, 10_state.md R23): each function of
Machine/Working.lean meets its specification of Safety.lean, and the scalar loop runs once more for each further low bit
of the scalar (43_scalar.md R95). -/

namespace Sys2Proof.Safety

open Sys2Proof.Machine

/-! The functions of the pseudocode -/

theorem leavesProduct_workMul (f : Buf) (n : Nat) (x y : Elem) (w : WorkBuffers) :
    LeavesProduct f x y w (workMul f n x y w) := ⟨_, rfl⟩

theorem leavesInverse_workInv (f : Buf) (n : Nat) (x : Elem) (w : WorkBuffers) :
    LeavesInverse f x w (workInv f n x w) := by
  refine ⟨fun hx => by rw [hx, workInv_zero], fun hx => ?_⟩
  simp only [workInv, if_neg hx]
  split_ifs with hu
  · exact ⟨_, _, _, _, _, rfl, by rintro b rfl -; exact ⟨hu, rfl, rfl, rfl, rfl⟩⟩
  · exact ⟨_, _, _, _, _, rfl, by rintro b rfl h; exact absurd h hu⟩

/-- The last line of R87 leaves one of its two products. -/
theorem leavesProduct_workDoubleY (c : Curve) (n : Nat) (p : Point) (lam : Elem) (w : WorkBuffers) :
    LeavesProduct c.f p.x p.x w (workDoubleY c n p lam w) ∨
      LeavesProduct c.f (gfInc lam) (doubleX c lam) w (workDoubleY c n p lam w) := by
  unfold workDoubleY
  cases Config.doubleSquaresFirst
  · exact .inl ⟨_, rfl⟩
  · exact .inr ⟨_, rfl⟩

/-- The inversion, `lam`, and a last product, which overwrites what the products before it left (R87). -/
theorem leavesDouble_workDouble (c : Curve) (n : Nat) (p : Point) (w : WorkBuffers) :
    LeavesDouble c p w (workDouble c n p w) := by
  refine ⟨fun hx => by rw [workDouble, if_pos hx], ?_⟩
  rintro v lam hv rfl
  obtain ⟨hx, rfl⟩ := gfInv_ok hv
  refine ⟨_, leavesInverse_workInv c.f n p.x w, ?_⟩
  rw [workDouble, if_neg hx, ptDouble, if_neg hx]
  exact leavesProduct_workDoubleY c n p (doubleLam c p) _

/-- The model's test for the identity pair (R85). -/
theorem point_eq_zero_iff (p : Point) : p = ⟨0, 0⟩ ↔ p.x = 0 ∧ p.y = 0 := by
  cases p; simp

/-- Each branch of `pt_add` leaves what LeavesSum says of it; the point `Q` is set apart (R88). -/
theorem leavesSum_workAdd (c : Curve) (n : Nat) (p q : Point) (w : WorkBuffers) :
    LeavesSum c p q w (workAdd c n p q w) := by
  refine ⟨workAddBody c n p q w, rfl, ?trivial, ?equal, ?general⟩ <;> simp only [workAddBody, ← point_eq_zero_iff]
  case trivial =>
    rintro (hp | hq | ⟨hx, hy⟩)
    · simp [hp]
    · simp [hq]
    · simp [hx, hy]
  case equal =>
    rintro hp rfl
    rw [if_neg hp, if_neg hp, if_pos rfl, if_pos rfl]
    exact leavesDouble_workDouble c n p w
  case general =>
    rintro v lam hp hq hv rfl
    obtain ⟨hsum, rfl⟩ := gfInv_ok hv
    have hx : p.x ≠ q.x := fun e => hsum (e ▸ BitVec.xor_self)
    refine ⟨_, leavesInverse_workInv c.f n (p.x ^^^ q.x) w, ?_⟩
    simp only [ptAdd, ← point_eq_zero_iff, if_neg hp, if_neg hq, if_neg hx]
    exact leavesProduct_workMul c.f n _ _ _

theorem leavesProduct_workOnCurve (c : Curve) (n : Nat) (p : Point) (w : WorkBuffers) (hp : p ≠ ⟨0, 0⟩) :
    LeavesProduct c.f (gfMul c.f p.x p.x) p.x w (workOnCurve c n p w) := by
  rw [workOnCurve, if_neg ((point_eq_zero_iff p).not.mp hp)]
  exact leavesProduct_workMul c.f n _ _ _

theorem workOnCurve_identity (c : Curve) (n : Nat) (w : WorkBuffers) : workOnCurve c n ⟨0, 0⟩ w = w := by
  simp [workOnCurve]

/-! The scalar loop -/

/-- `R` in the buffers follows the accumulator of the scalar loop (R95). -/
theorem workScalarLoop_rPoint (c : Curve) (n : Nat) (p : Point) (k : Elem) (m : Nat) (r : Point) (w : WorkBuffers)
    (h : w.rPoint = toWork r) : (workScalarLoop c n p k m r w).rPoint = toWork (scalarLoop c p k m r) := by
  induction m generalizing r w with
  | zero => exact h
  | succ m ih => exact ih _ _ (workScalarStep_rPoint ..)

/-- `R` is the result when the loop has ended (R95). -/
theorem leavesR_workScalar (c : Curve) (n : Nat) (p : Point) (k : Elem) (w : WorkBuffers) :
    LeavesR (scalarMultiply c p k) (workScalar c n p k w) (workScalar c n p k w) := by
  have h : (workScalar c n p k w).rPoint = toWork (scalarMultiply c p k) := workScalarLoop_rPoint c n p k _ _ _ rfl
  exact congrArg (fun r => { workScalar c n p k w with rPoint := r }) h

/-- A scalar with one more low bit `b`: the loop on the bits above it, then one iteration for `b`. -/
theorem workScalarLoop_bit {b : Bool} {k k' : Elem} (hk : k'.toNat = Nat.bit b k.toNat) (c : Curve) (n : Nat) (p : Point)
    (m : Nat) (r : Point) (w : WorkBuffers) :
    workScalarLoop c n p k' (m + 1) r w =
      workScalarStep c n p b (scalarLoop c p k m r) (workScalarLoop c n p k m r w) := by
  induction m generalizing r w with
  | zero =>
    have hbit : k'.getLsbD 0 = b := by rw [BitVec.getLsbD, hk, Nat.testBit_bit_zero]
    exact congrArg (workScalarStep c n p · r w) hbit
  | succ m ih =>
    have hbit : k'.getLsbD (m + 1) = k.getLsbD m := by rw [BitVec.getLsbD, hk, Nat.testBit_bit_succ]; rfl
    rw [workScalarLoop, hbit, ih]
    rfl

/-- A low bit more makes a nonzero scalar's `bitlen` one more (R66). -/
theorem bitlen_toBuf_bit {b : Bool} {k k' : Elem} (hk : k'.toNat = Nat.bit b k.toNat) (h0 : k' ≠ 0) :
    bitlen (toBuf k') = bitlen (toBuf k) + 1 := by
  have hbit : Nat.bit b k.toNat ≠ 0 := fun e => h0 (BitVec.eq_of_toNat_eq (hk.trans e))
  have htoNat (v : Elem) : (toBuf v).toNat = v.toNat := by simp [toBuf]; omega
  rw [bitlen_eq_size, bitlen_eq_size, htoNat, htoNat, hk, Nat.size_bit hbit]

/-- The scalar loop on a scalar with one more low bit runs one more iteration on what it left before (R95). -/
theorem workScalar_bit {b : Bool} {k k' : Elem} (hk : k'.toNat = Nat.bit b k.toNat) (c : Curve) (n : Nat) (p : Point)
    (w : WorkBuffers) :
    workScalar c n p k' w = workScalarStep c n p b (scalarMultiply c p k) (workScalar c n p k w) := by
  by_cases h0 : k' = 0
  · obtain ⟨hk0, rfl⟩ : k.toNat = 0 ∧ b = false := Nat.bit_eq_zero_iff.mp (by rw [← hk, h0]; rfl)
    obtain rfl : k = 0 := BitVec.eq_of_toNat_eq hk0
    rw [h0]
    rfl
  · rw [workScalar, bitlen_toBuf_bit hk h0]
    exact workScalarLoop_bit hk c n p _ _ _

theorem toNat_shl_one {k : Elem} (h : k.toNat < 2 ^ 162) : (k <<< 1).toNat = Nat.bit false k.toNat := by
  rw [BitVec.toNat_shiftLeft, Nat.shiftLeft_eq, Nat.bit_false_apply]
  omega

theorem toNat_shl_one_or_one {k : Elem} (h : k.toNat < 2 ^ 162) : (k <<< 1 ||| 1).toNat = Nat.bit true k.toNat := by
  rw [BitVec.toNat_or, toNat_shl_one h, show (1 : Elem).toNat = Nat.bit true 0 from rfl, Nat.lor_bit]
  simp

/-- A low bit 0: the doubling, then `R` (R95). -/
theorem leavesR_workScalar_shl_one (c : Curve) (n : Nat) (p : Point) (k : Elem) (w : WorkBuffers)
    (h : k.toNat < 2 ^ 162) :
    LeavesR (ptDouble c (scalarMultiply c p k)) (workDouble c n (scalarMultiply c p k) (workScalar c n p k w))
      (workScalar c n p (k <<< 1) w) :=
  workScalar_bit (toNat_shl_one h) c n p w

/-- A low bit 1: after what a low bit 0 leaves, the addition and `R` again (R95). -/
theorem leavesR_workScalar_shl_one_or_one (c : Curve) (n : Nat) (p : Point) (k : Elem) (w : WorkBuffers)
    (h : k.toNat < 2 ^ 162) :
    LeavesR (ptAdd c (ptDouble c (scalarMultiply c p k)) p)
      (workAdd c n (ptDouble c (scalarMultiply c p k)) p (workScalar c n p (k <<< 1) w))
      (workScalar c n p (k <<< 1 ||| 1) w) := by
  rw [workScalar_bit (toNat_shl_one_or_one h), workScalar_bit (toNat_shl_one h)]
  rfl

/-! The commands -/

/-- A command leaves in the buffers what its meaning hands to `complete`. -/
theorem exec_work {i : Instr} {s : State} {r : CmdResult} {w : WorkBuffers} (h : exec i s = complete s r w) :
    ∃ t, exec i s = .next t ∧ t.work = w :=
  ⟨_, h, (complete_work rfl).2.1⟩

/-- A command on even point registers leaves what its meaning hands to `completeOnPoints` (R53). -/
theorem exec_work_of_even {i : Instr} {s : State} {rs : List Reg} {r : CmdResult} {w : WorkBuffers}
    (h : exec i s = completeOnPoints rs s r w) (heven : ∀ q ∈ rs, q.toNat % 2 = 0) :
    ∃ t, exec i s = .next t ∧ t.work = w := by
  have hodd : rs.any oddReg = false := by
    rw [List.any_eq_false]
    exact fun q hq => by simp [oddReg, BitVec.getLsbD, heven q hq]
  exact exec_work (h.trans (completeOnPoints_even hodd s r w))

/-- A term that no word decodes to ends with the buffers as they are (log entry 9). -/
theorem exec_illFormed {i : Instr} (h : i.wellFormed = false) (s : State) : ∃ r, exec i s = complete s r s.work := by
  cases i with
  | ldc => exact ⟨_, rfl⟩
  | pisid | ponc | pdbl | padd | pmul =>
    exact ⟨_, completeOnPoints_odd (by simpa [Instr.wellFormed, evenReg, oddReg, or_iff_not_imp_left] using h) s _ _⟩
  | _ => cases h

/-- The commands whose pseudocode assigns no buffer end with the buffers as they are (R13). -/
theorem exec_keeps_work {i : Instr}
    (h : mnemonicOf i ∈ [Mnemonic.FMOV, .LDC, .GETBIT, .CLRBIT, .ISZERO, .EQ, .DEG, .FADD, .FINC, .PISID]) (s : State) :
    ∃ r, exec i s = complete s r s.work := by
  cases i with
  | fmul | finv | ponc | pdbl | padd | pmul => simp [mnemonicOf] at h
  | pisid pa =>
    cases h : [pa].any oddReg
    · exact ⟨_, completeOnPoints_even h s _ _⟩
    · exact ⟨_, completeOnPoints_odd h s _ _⟩
  | _ => exact ⟨_, rfl⟩

theorem exec_fmul_leaves (s : State) (fd fa fb : Reg) : ∃ t, exec (.fmul fd fa fb) s = .next t ∧
    LeavesProduct s.rom.f (latchedF s fa) (latchedF s fb) s.work t.work := by
  obtain ⟨t, ht, hw⟩ : ∃ t, exec (.fmul fd fa fb) s = .next t ∧
    t.work = workMul s.rom.f s.freeIdx (latchedF s fa) (latchedF s fb) s.work := exec_work rfl
  exact ⟨t, ht, hw ▸ leavesProduct_workMul ..⟩

theorem exec_finv_leaves (s : State) (fd fa : Reg) : ∃ t, exec (.finv fd fa) s = .next t ∧
    LeavesInverse s.rom.f (latchedF s fa) s.work t.work := by
  obtain ⟨t, ht, hw⟩ : ∃ t, exec (.finv fd fa) s = .next t ∧
    t.work = workInv s.rom.f s.freeIdx (latchedF s fa) s.work := exec_work rfl
  exact ⟨t, ht, hw ▸ leavesInverse_workInv ..⟩

section PointCommands

variable (s : State) {pd pa pb : Reg} (fk : Reg)

theorem exec_ponc_leaves (ha : pa.toNat % 2 = 0) : ∃ t, exec (.ponc pa) s = .next t ∧
    (latchedP s pa = ⟨0, 0⟩ → t.work = s.work) ∧
    (latchedP s pa ≠ ⟨0, 0⟩ →
      LeavesProduct s.rom.f (gfMul s.rom.f (latchedF s pa) (latchedF s pa)) (latchedF s pa) s.work t.work) := by
  obtain ⟨t, ht, hw⟩ : ∃ t, exec (.ponc pa) s = .next t ∧
      t.work = workOnCurve s.rom s.freeIdx (latchedP s pa) s.work :=
    exec_work_of_even rfl (by simp [ha])
  refine ⟨t, ht, fun hp => by rw [hw, hp, workOnCurve_identity], fun hp => ?_⟩
  rw [hw]
  exact leavesProduct_workOnCurve s.rom s.freeIdx (latchedP s pa) s.work hp

theorem exec_pdbl_leaves (hd : pd.toNat % 2 = 0) (ha : pa.toNat % 2 = 0) :
    ∃ t, exec (.pdbl pd pa) s = .next t ∧ LeavesDouble s.rom (latchedP s pa) s.work t.work := by
  obtain ⟨t, ht, hw⟩ : ∃ t, exec (.pdbl pd pa) s = .next t ∧
      t.work = workDouble s.rom s.freeIdx (latchedP s pa) s.work :=
    exec_work_of_even rfl (by simp [hd, ha])
  exact ⟨t, ht, hw ▸ leavesDouble_workDouble ..⟩

theorem exec_padd_leaves (hd : pd.toNat % 2 = 0) (ha : pa.toNat % 2 = 0) (hb : pb.toNat % 2 = 0) :
    ∃ t, exec (.padd pd pa pb) s = .next t ∧ LeavesSum s.rom (latchedP s pa) (latchedP s pb) s.work t.work := by
  obtain ⟨t, ht, hw⟩ : ∃ t, exec (.padd pd pa pb) s = .next t ∧
      t.work = workAdd s.rom s.freeIdx (latchedP s pa) (latchedP s pb) s.work :=
    exec_work_of_even rfl (by simp [hd, ha, hb])
  exact ⟨t, ht, hw ▸ leavesSum_workAdd ..⟩

theorem exec_pmul_leaves (hd : pd.toNat % 2 = 0) (ha : pa.toNat % 2 = 0) : ∃ t, exec (.pmul pd pa fk) s = .next t ∧
    t.work = workScalar s.rom s.freeIdx (latchedP s pa) (latchedF s fk) s.work ∧
    LeavesR (scalarMultiply s.rom (latchedP s pa) (latchedF s fk)) t.work t.work := by
  obtain ⟨t, ht, hw⟩ : ∃ t, exec (.pmul pd pa fk) s = .next t ∧
      t.work = workScalar s.rom s.freeIdx (latchedP s pa) (latchedF s fk) s.work :=
    exec_work_of_even rfl (by simp [hd, ha])
  exact ⟨t, ht, hw, by rw [hw]; exact leavesR_workScalar ..⟩

end PointCommands

/-- Settles O25: each command ends with what its function of Machine/Working.lean leaves, and each of these functions
leaves what its pseudocode assigns. -/
theorem workingBuffersHoldWhatWasAssigned : Obligations.WorkingBuffersHoldWhatWasAssigned := by
  refine ⟨?keeps, ?field, ?point, ?scalar⟩
  case keeps =>
    intro i s t h ht
    obtain ⟨r, hr⟩ : ∃ r, exec i s = complete s r s.work := h.elim (exec_illFormed · s) (exec_keeps_work · s)
    exact (complete_work (hr.symm.trans ht)).2.1
  case field => exact fun s fd fa fb => ⟨exec_fmul_leaves s fd fa fb, exec_finv_leaves s fd fa⟩
  case point =>
    exact fun s pd pa pb fk hd ha =>
      ⟨exec_ponc_leaves s ha, exec_pdbl_leaves s hd ha, exec_padd_leaves s hd ha, exec_pmul_leaves s fk hd ha⟩
  case scalar =>
    refine fun c n p w => ⟨⟨(Config.workingBuffer n 13).setWidth 9, rfl⟩, ?_⟩
    rintro k d hk rfl
    exact ⟨_, workScalar c n p (k <<< 1) w, _, leavesDouble_workDouble c n _ _, leavesR_workScalar_shl_one c n p k w hk,
      rfl, leavesSum_workAdd c n _ p _, leavesR_workScalar_shl_one_or_one c n p k w hk⟩

end Sys2Proof.Safety
end

section
/-! PROOFS. What a command can do (10_state.md R18, R21, R28, R29): which writes it may stage, and that what it stages
follows from ROM and the latched operands alone. -/

namespace Sys2Proof.Safety

open Sys2Proof.Machine

/-! What a command may stage -/

/-- What a command may stage for RES: a query a truth value, DEG a count of at most 163, any other command nothing (R21). -/
def MayStageRes (i : Instr) : Option Word → Prop
  | none => mnemonicOf i ∉ queries
  | some v => mnemonicOf i ∈ queries ∧ if mnemonicOf i = .DEG then v.toNat ≤ 163 else v = 0 ∨ v = 1

/-- What a command may stage: an error, or writes to its destination and what it may stage for RES (R18, R21). -/
def MayStage (i : Instr) : CmdResult → Prop
  | .error _ => True
  | .writes regs res => (∀ rv ∈ regs, rv.1 ∈ destinations i) ∧ MayStageRes i res

theorem mayStage_stageF {i : Instr} {fd : Reg} (hd : destinations i = [fd]) (hq : mnemonicOf i ∉ queries) (v : Elem) :
    MayStage i (stageF fd v) :=
  ⟨by simp [hd], hq⟩

theorem mayStage_stageP {i : Instr} {pd : Reg} (hd : destinations i = [pd, pd + 1]) (hq : mnemonicOf i ∉ queries)
    (p : Point) : MayStage i (stageP pd p) :=
  ⟨by simp [hd], hq⟩

theorem truthWord_eq (b : Bool) : truthWord b = 0 ∨ truthWord b = 1 := by
  cases b
  · exact .inl rfl
  · exact .inr rfl

theorem mayStage_truthWord {i : Instr} (hq : mnemonicOf i ∈ queries) (hdeg : mnemonicOf i ≠ .DEG) (b : Bool) :
    MayStage i (stageRes (truthWord b)) :=
  ⟨by simp, hq, by rw [if_neg hdeg]; exact truthWord_eq b⟩

theorem mayStage_stageOr {α : Type} {i : Instr} {stage : α → CmdResult} (h : ∀ v, MayStage i (stage v))
    (x : Except CmdError α) : MayStage i (stageOr stage x) := by
  cases x with
  | ok v => exact h v
  | error e => trivial

/-- The bit length of a field register's content (R66). -/
theorem bitlen_toBuf_le (v : Elem) : bitlen (toBuf v) ≤ 163 := by
  rw [bitlen_eq_size, Nat.size_le, toBuf, BitVec.toNat_setWidth]
  exact (Nat.mod_le _ _).trans_lt v.isLt

theorem mayStage_deg (fa : Reg) (v : Elem) :
    MayStage (.deg fa) (stageRes (BitVec.ofNat 32 (bitlen (toBuf v)))) := by
  refine ⟨by simp, by simp [mnemonicOf, queries], ?_⟩
  rw [if_pos (by rfl), BitVec.toNat_ofNat]
  exact (Nat.mod_le _ _).trans (bitlen_toBuf_le v)

theorem completeOnPoints_mayStage {i : Instr} {r : CmdResult} (h : MayStage i r) (rs : List Reg) (s : State)
    (w : WorkBuffers) : ∃ r' w', completeOnPoints rs s r w = complete s r' w' ∧ MayStage i r' := by
  cases hodd : rs.any oddReg
  · exact ⟨_, _, completeOnPoints_even hodd s r w, h⟩
  · exact ⟨_, _, completeOnPoints_odd hodd s r w, trivial⟩

/-- Every meaning is the end of a command with a result that its command may stage. -/
theorem exec_complete_mayStage (i : Instr) (s : State) : ∃ r w, exec i s = complete s r w ∧ MayStage i r := by
  cases i with
  | fmov | fadd | finc | fmul => exact ⟨_, _, rfl, mayStage_stageF rfl (by simp [mnemonicOf, queries]) _⟩
  | ldc | clrbit | finv =>
    exact ⟨_, _, rfl, mayStage_stageOr (fun _ => mayStage_stageF rfl (by simp [mnemonicOf, queries]) _) _⟩
  | iszero | eq => exact ⟨_, _, rfl, mayStage_truthWord (by simp [mnemonicOf, queries]) (by simp [mnemonicOf]) _⟩
  | getbit =>
    exact ⟨_, _, rfl, mayStage_stageOr
      (fun _ => mayStage_truthWord (by simp [mnemonicOf, queries]) (by simp [mnemonicOf]) _) _⟩
  | deg fa => exact ⟨_, _, rfl, mayStage_deg fa _⟩
  | pisid | ponc =>
    exact completeOnPoints_mayStage (mayStage_truthWord (by simp [mnemonicOf, queries]) (by simp [mnemonicOf]) _) _ s _
  | pdbl | padd | pmul =>
    exact completeOnPoints_mayStage (mayStage_stageP rfl (by simp [mnemonicOf, queries]) _) _ s _

/-- All that a command can do: its staged writes, to its destination and what it may write to RES, are applied and no
error is reported; or nothing is written and an error is reported (R29, R100). -/
theorem exec_cases {i : Instr} {s t : State} (h : exec i s = .next t) :
    (∃ regs res, t.staged = .writes regs res ∧ (∀ rv ∈ regs, rv.1 ∈ destinations i) ∧ MayStageRes i res ∧
      t.f = writeRegs regs s.f ∧ t.res = res.getD s.res ∧ t.status = committedStatus s.status none) ∨
    (∃ e, t.f = s.f ∧ t.res = s.res ∧ t.status = committedStatus s.status (some e)) := by
  obtain ⟨r, w, hr, hmay⟩ := exec_complete_mayStage i s
  rw [hr] at h
  rcases complete_cases h with ⟨regs, res, rfl, hf, hres, hst⟩ | ⟨e, rfl, hf, hres, hst⟩
  · exact .inl ⟨regs, res, (complete_work h).1, hmay.1, hmay.2, hf, hres, hst⟩
  · exact .inr ⟨e, hf, hres, hst⟩

theorem exec_total (i : Instr) (s : State) : ∃ t, exec i s = .next t := by
  obtain ⟨r, w, h⟩ := exec_complete i s
  exact ⟨_, h⟩

theorem exec_frame {i : Instr} {s t : State} (h : exec i s = .next t) : CommandFrame s t := by
  obtain ⟨r, w, hr⟩ := exec_complete i s
  exact complete_frame (hr.symm.trans h)

/-- A set of writes leaves a register alone that is in none of them (R29). -/
theorem readReg_writeRegs_of_notMem {r : Reg} {regs : List (Reg × Elem)} (h : ∀ rv ∈ regs, rv.1 ≠ r)
    (f : Vector Elem 16) : readReg (writeRegs regs f) r = readReg f r := by
  induction regs generalizing f with
  | nil => rfl
  | cons rv regs ih =>
    rw [writeRegs_cons, ih fun q hq => h q (List.mem_cons_of_mem _ hq), readReg_writeReg,
      if_neg (h rv List.mem_cons_self).symm]

/-- Settles O10: what `exec_cases` says of a command that commits and of one in error. -/
theorem commitIsAllOrNothing : Obligations.CommitIsAllOrNothing := by
  intro i s
  obtain ⟨t, ht⟩ := exec_total i s
  refine ⟨t, ht, ?_⟩
  rcases exec_cases ht with ⟨regs, res, hstaged, -, -, hf, hres, hst⟩ | ⟨e, hf, hres, hst⟩
  · exact ⟨by rw [hst]; rfl, by rw [hst]; rfl, by rw [hst]; rfl, by simp [hst],
      fun _ => ⟨regs, res, hstaged, hf, hres⟩, by simp [hst], exec_frame ht⟩
  · exact ⟨by rw [hst]; rfl, by rw [hst]; rfl, by rw [hst]; rfl, by simp [hst],
      by simp [hst], fun _ => ⟨hf, hres⟩, exec_frame ht⟩

/-- Settles O11: every staged write goes to the destination, and an error writes nothing. -/
theorem commandsWriteOnlyTheirDestination : Obligations.CommandsWriteOnlyTheirDestination := by
  intro i s t ht r hr
  rcases exec_cases ht with ⟨regs, res, -, hregs, -, hf, -, -⟩ | ⟨e, hf, -, -⟩
  · rw [hf]
    exact readReg_writeRegs_of_notMem (fun rv hrv (heq : rv.1 = r) => hr (heq ▸ hregs rv hrv)) s.f
  · rw [hf]

/-- Settles O12: a command that is no query stages nothing for RES, and a query a word in its range. -/
theorem onlyQueriesWriteRes : Obligations.OnlyQueriesWriteRes := by
  intro i s t ht
  rcases exec_cases ht with ⟨regs, res, -, -, hmay, -, hres, -⟩ | ⟨e, -, hres, hst⟩
  · cases res with
    | none => exact ⟨fun _ => hres, fun hq => absurd hq hmay⟩
    | some v => exact ⟨fun hq => absurd hmay.1 hq, fun _ _ => by rw [hres]; exact hmay.2⟩
  · exact ⟨fun _ => hres, fun _ herr => by simp [hst] at herr⟩

/-! The point commands -/

theorem any_oddReg_of_even {rs : List Reg} (h : ∀ r ∈ rs, r.toNat % 2 = 0) : rs.any oddReg = false := by
  rw [List.any_eq_false]
  exact fun r hr => by simp [oddReg, BitVec.getLsbD, h r hr]

/-- A command on even point registers that stages a point completes with it (R19, R53). -/
theorem completes_of_stageP_of_even {i : Instr} {s : State} {rs : List Reg} {pd : Reg} {p : Point} {w : WorkBuffers}
    (h : exec i s = completeOnPoints rs s (stageP pd p) w) (heven : ∀ r ∈ rs, r.toNat % 2 = 0) :
    Completes i s (withPoint s pd p) s.res :=
  completes_of_stageP (h.trans (completeOnPoints_even (any_oddReg_of_even heven) s _ w))

/-- Settles O54: each of the three stages its point, and its point fields are even. -/
theorem pointCommandsWriteTheirPoint : Obligations.PointCommandsWriteTheirPoint := fun _ _ _ _ _ hd ha =>
  ⟨completes_of_stageP_of_even rfl (by simp [hd, ha]),
    fun hb => completes_of_stageP_of_even rfl (by simp [hd, ha, hb]),
    completes_of_stageP_of_even rfl (by simp [hd, ha])⟩

/-! What a command stages follows from ROM and the latched operands -/

theorem completeOnPoints_congr (rs : List Reg) (s s' : State) (r : CmdResult) (w w' : WorkBuffers) :
    ∃ r₁ w₁ w₁', completeOnPoints rs s r w = complete s r₁ w₁ ∧ completeOnPoints rs s' r w' = complete s' r₁ w₁' := by
  cases hodd : rs.any oddReg
  · exact ⟨_, _, _, completeOnPoints_even hodd s r w, completeOnPoints_even hodd s' r w'⟩
  · exact ⟨_, _, _, completeOnPoints_odd hodd s r w, completeOnPoints_odd hodd s' r w'⟩

/-- With the same ROM and the same latched operands a command stages the same result, whatever the rest of the state (R28). -/
theorem exec_congr (i : Instr) {s s' : State} (hrom : s'.rom = s.rom) (hlatch : s'.latchF = s.latchF) :
    ∃ r w w', exec i s = complete s r w ∧ exec i s' = complete s' r w' := by
  cases s'
  cases hrom
  cases hlatch
  cases i with
  | pisid | ponc | pdbl | padd | pmul => exact completeOnPoints_congr _ _ _ _ _ _
  | _ => exact ⟨_, _, _, rfl, rfl⟩

end Sys2Proof.Safety
end

section
/-! PROOFS. What each event does to the block, step by step (10_state.md R21, R24, R25, R27, R28; 70 R113): the equation
of a step for each head of the port, and what every step keeps. -/

namespace Sys2Proof.Machine

/-! One step, by the head of the port (R47) -/

theorem step_port_nil {s : State} (h : s.port = []) : step s = coreTurn s := by
  simp [step, h]

theorem step_core {s : State} {rest : List PortEvent} (h : s.port = .core :: rest) :
    step s = coreTurn { s with port := rest } := by
  simp [step, h]

theorem step_bus {s : State} {t : Transaction} {rest : List PortEvent} (h : s.port = .bus t :: rest) :
    step s = .next (transact t { s with port := rest }) := by
  simp [step, h]

theorem step_rst {s : State} {fl : Option Transaction} {rest : List PortEvent} (h : s.port = .rst fl :: rest) :
    step s = .next (reset fl { s with port := rest }) := by
  simp [step, h]

/-! The turn of the CORE (R28) -/

theorem coreTurn_of_decode {s : State} {i : Instr} (hb : s.status.busy = true) (hi : decode s.latchWord = .ok i) :
    coreTurn s = exec i s := by
  simp [coreTurn, runCommand, latchedCommand, hb, hi]

theorem coreTurn_of_illegal {s : State} {cause : IllegalCause} (hb : s.status.busy = true)
    (hi : decode s.latchWord = .error cause) : coreTurn s = completeIllegal s := by
  simp [coreTurn, runCommand, latchedCommand, hb, hi]

/-- A turn of the CORE while a command is in progress is that command's meaning or the end of an Illegal word (R28, R58). -/
theorem coreTurn_busy_cases {s : State} (hb : s.status.busy = true) :
    (∃ i, coreTurn s = exec i s) ∨ coreTurn s = completeIllegal s := by
  cases hi : decode s.latchWord with
  | ok i => exact .inl ⟨i, coreTurn_of_decode hb hi⟩
  | error cause => exact .inr (coreTurn_of_illegal hb hi)

theorem coreTurn_total (s : State) : ∃ t, coreTurn s = .next t := by
  cases hb : s.status.busy
  · exact ⟨s, coreTurn_idle hb⟩
  · obtain ⟨r, w, h⟩ := coreTurn_busy hb
    exact ⟨_, h⟩

/-- A turn of the CORE while a command is in progress leaves the STATUS of a commit (R29). -/
theorem coreTurn_commits {s t : State} (hb : s.status.busy = true) (h : coreTurn s = .next t) :
    ∃ e, t.status = committedStatus s.status e := by
  obtain ⟨r, w, hr⟩ := coreTurn_busy hb
  rcases complete_cases (hr.symm.trans h) with ⟨_, _, _, _, _, hst⟩ | ⟨_, _, _, _, hst⟩
  · exact ⟨_, hst⟩
  · exact ⟨_, hst⟩

/-- After a turn of the CORE no command is in progress (R29). -/
theorem coreTurn_not_busy {s t : State} (h : coreTurn s = .next t) : t.status.busy = false := by
  cases hb : s.status.busy
  · rw [coreTurn_idle hb] at h
    cases h
    exact hb
  · obtain ⟨e, hst⟩ := coreTurn_commits hb h
    rw [hst]
    rfl

/-- A turn of the CORE changes neither ROM nor the events to come (R24). -/
theorem coreTurn_frame {s t : State} (h : coreTurn s = .next t) : t.rom = s.rom ∧ t.port = s.port := by
  cases hb : s.status.busy
  · rw [coreTurn_idle hb] at h
    cases h
    exact ⟨rfl, rfl⟩
  · obtain ⟨r, w, hr⟩ := coreTurn_busy hb
    obtain ⟨hrom, -, -, -, hport⟩ := complete_frame (hr.symm.trans h)
    exact ⟨hrom, hport⟩

/-- Every step answers a next state, which has the same ROM and the port without its head (R24, R43, R100, R113). -/
theorem step_next (s : State) : ∃ t, step s = .next t ∧ t.rom = s.rom ∧ t.port = s.port.tail := by
  rcases step_cases s with ⟨hp, h⟩ | ⟨rest, hp, h⟩ | ⟨tr, rest, hp, h⟩ | ⟨fl, rest, hp, h⟩ <;> rw [h, hp]
  · obtain ⟨t, ht⟩ := coreTurn_total s
    obtain ⟨hrom, hport⟩ := coreTurn_frame ht
    exact ⟨t, ht, hrom, hport.trans hp⟩
  · obtain ⟨t, ht⟩ := coreTurn_total { s with port := rest }
    exact ⟨t, ht, coreTurn_frame ht⟩
  · obtain ⟨-, hrom, -, -, hport, -⟩ := transact_frame tr { s with port := rest }
    exact ⟨_, rfl, hrom, hport⟩
  · exact ⟨_, rfl, rfl, rfl⟩

end Sys2Proof.Machine

namespace Sys2Proof.Safety

open Sys2Proof.Machine

/-- Settles O15: every event at the port is answered with a next state (`step_next`). -/
theorem stepAlwaysAnswersANextState : Obligations.StepAlwaysAnswersANextState := fun s =>
  (step_next s).imp fun _ h => h.1

/-- Settles O19: no turn of the CORE, transaction or reset writes ROM (`step_next`). -/
theorem romNeverChanges : Obligations.RomNeverChanges := by
  intro s t h
  obtain ⟨u, hu, hrom, -⟩ := step_next s
  rw [hu] at h
  cases h
  exact hrom

/-- Settles O8: both turns are the turn of the CORE, which runs what it decodes. -/
theorem stepRunsTheDecodedCommand : Obligations.StepRunsTheDecodedCommand := fun _ _ hb hi =>
  ⟨fun hp => (step_port_nil hp).trans (coreTurn_of_decode hb hi),
    fun _ hp => (step_core hp).trans (coreTurn_of_decode hb hi)⟩

/-! The write to CMD -/

/-- A write to CMD is the accept, or while a command is in progress dropped, and is answered OK (R27, R39, R42). -/
theorem transact_cmd (s : State) (w : Word) :
    transact (.write 0x200 4 w) s = respond (.write .ok) (if s.status.busy then dropWrite s else accept w s) := by
  have hloc : locate 0x200 = .cmd := by decide
  rw [transact, if_pos (by decide), writeData, hloc]

theorem transact_cmd_of_idle {s : State} (hb : s.status.busy = false) (w : Word) :
    transact (.write 0x200 4 w) s = respond (.write .ok) (accept w s) := by
  rw [transact_cmd, if_neg (by simp [hb])]

theorem transact_cmd_of_busy {s : State} (hb : s.status.busy = true) (w : Word) :
    transact (.write 0x200 4 w) s = respond (.write .ok) (dropWrite s) := by
  rw [transact_cmd, if_pos hb]

/-- Settles O9: the two cases of a write to CMD. -/
theorem cmdWriteAcceptsTheCommand : Obligations.CmdWriteAcceptsTheCommand := by
  intro s w rest hp
  rw [step_bus hp]
  exact ⟨fun hb => congrArg _ (transact_cmd_of_idle (s := { s with port := rest }) hb w),
    fun hb => congrArg _ (transact_cmd_of_busy (s := { s with port := rest }) hb w)⟩

/-! The invariant -/

theorem statusLegal_committed (st : Status) (e : Option CmdError) : StatusLegal (committedStatus st e) :=
  ⟨by simp, by simp [Option.isSome_iff_ne_none]⟩

/-- Of an idle block the invariant says only that STATUS is legal and RES bounded. -/
theorem machineInv_of_idle {s : State} (hb : s.status.busy = false) (hst : StatusLegal s.status)
    (hres : s.res.toNat ≤ 163) : MachineInv s :=
  ⟨hst, by simp [hb], by simp [hb], hres⟩

/-- The invariant does not speak of the events to come. -/
theorem machineInv_setPort {s : State} (h : MachineInv s) (p : List PortEvent) : MachineInv { s with port := p } :=
  ⟨h.statusLegal, h.busyHasNoError, h.latchedIsCurrent, h.resBound⟩

/-- The invariant does not speak of the response port. -/
theorem machineInv_respond {s : State} (h : MachineInv s) (r : Response) : MachineInv (respond r s) :=
  ⟨h.statusLegal, h.busyHasNoError, h.latchedIsCurrent, h.resBound⟩

/-- A word that a command may leave in RES is at most 163 (R21). -/
theorem toNat_le_of_mayStageRes {i : Instr} {v : Word} (h : MayStageRes i (some v)) : v.toNat ≤ 163 := by
  obtain ⟨-, hv⟩ := h
  split_ifs at hv
  · exact hv
  · rcases hv with rfl | rfl <;> decide

theorem machineInv_exec {i : Instr} {s t : State} (h : MachineInv s) (ht : exec i s = .next t) : MachineInv t := by
  rcases exec_cases ht with ⟨regs, res, -, -, hmay, -, hres, hst⟩ | ⟨e, -, hres, hst⟩
  · refine machineInv_of_idle (by rw [hst]; rfl) (hst ▸ statusLegal_committed s.status none) ?_
    cases res with
    | none => rw [hres]; exact h.resBound
    | some v => rw [hres]; exact toNat_le_of_mayStageRes hmay
  · exact machineInv_of_idle (by rw [hst]; rfl) (hst ▸ statusLegal_committed s.status (some e)) (hres ▸ h.resBound)

theorem machineInv_coreTurn {s t : State} (h : MachineInv s) (ht : coreTurn s = .next t) : MachineInv t := by
  cases hb : s.status.busy
  · rw [coreTurn_idle hb] at ht
    cases ht
    exact h
  · rcases coreTurn_busy_cases hb with ⟨i, hi⟩ | hill
    · exact machineInv_exec h (hi.symm.trans ht)
    · rw [hill] at ht
      cases ht
      exact machineInv_of_idle rfl (statusLegal_committed s.status (some .illegalCmd)) h.resBound

/-- A write to the window keeps the invariant: a register word is written only while no command is in progress, and the
accept latches the registers as they are (R27, R30, R37, R42). -/
theorem machineInv_writeData {s : State} (h : MachineInv s) (off : Offset) (d : Word) : MachineInv (writeData off d s) := by
  rcases writeData_cases off d s with e | ⟨-, e⟩ | ⟨hb, r, w, -, e⟩ | ⟨-, -, e⟩ <;> rw [e]
  · exact h
  · exact ⟨h.statusLegal, h.busyHasNoError, h.latchedIsCurrent, h.resBound⟩
  · exact machineInv_of_idle hb h.statusLegal h.resBound
  · exact ⟨by simp [StatusLegal], fun _ => ⟨rfl, rfl⟩, fun _ => rfl, h.resBound⟩

theorem machineInv_transact {s : State} (h : MachineInv s) (t : Transaction) : MachineInv (transact t s) := by
  rcases transact_cases t s with ⟨r, e⟩ | ⟨off, size, d, -, -, e⟩ <;> rw [e]
  · exact machineInv_respond h r
  · exact machineInv_respond (machineInv_writeData h off d) (.write .ok)

theorem statusLegal_zero : StatusLegal Status.zero := by simp [StatusLegal, Status.zero]

theorem machineInv_reset (fl : Option Transaction) (s : State) : MachineInv (reset fl s) :=
  machineInv_of_idle rfl statusLegal_zero (Nat.zero_le 163)

/-- Settles O17: each kind of step keeps the invariant. -/
theorem stepKeepsTheInvariant : Obligations.StepKeepsTheInvariant := by
  intro s t h ht
  rcases step_cases s with ⟨-, e⟩ | ⟨rest, -, e⟩ | ⟨tr, rest, -, e⟩ | ⟨fl, rest, -, e⟩ <;> rw [e] at ht
  · exact machineInv_coreTurn h ht
  · exact machineInv_coreTurn (machineInv_setPort h rest) ht
  · cases ht
    exact machineInv_transact (machineInv_setPort h rest) tr
  · cases ht
    exact machineInv_reset fl _

/-! The state after reset -/

/-- Settles O18: its STATUS is legal and no command is in progress. -/
theorem resetMeetsTheInvariant : Obligations.ResetMeetsTheInvariant :=
  machineInv_of_idle rfl statusLegal_zero (Nat.zero_le 163)

/-- Settles O20: `Config.k163.f` is R8's polynomial, and the other values are those of `State.reset`. -/
theorem resetStateHasTheStatedValues : Obligations.ResetStateHasTheStatedValues :=
  ⟨readReg_replicate 0, rfl, by decide, rfl, by decide, rfl, rfl, rfl, rfl⟩

/-! The working buffers -/

/-- The end of a command from a state with other working buffers is the same but for them (R23). -/
theorem complete_setWork (s : State) (r : CmdResult) (b w w' : WorkBuffers) :
    complete { s with work := b } r w' = .next { commit (evaluated r w s) with work := w' } := by
  cases r <;> rfl

/-- With the same latched word, ROM and latched operands two turns of the CORE stage the same result (R28). -/
theorem coreTurn_congr {s s' : State} (hb : s.status.busy = true) (hb' : s'.status.busy = true)
    (hword : s'.latchWord = s.latchWord) (hrom : s'.rom = s.rom) (hlatch : s'.latchF = s.latchF) :
    ∃ r w w', coreTurn s = complete s r w ∧ coreTurn s' = complete s' r w' := by
  cases hi : decode s.latchWord with
  | ok i =>
    rw [coreTurn_of_decode hb hi, coreTurn_of_decode hb' (hword ▸ hi)]
    exact exec_congr i hrom hlatch
  | error cause =>
    rw [coreTurn_of_illegal hb hi, coreTurn_of_illegal hb' (hword ▸ hi)]
    exact ⟨_, _, _, rfl, rfl⟩

theorem coreTurn_setWork {s t : State} (ht : coreTurn s = .next t) (b : WorkBuffers) :
    ∃ w', coreTurn { s with work := b } = .next { t with work := w' } := by
  cases hb : s.status.busy
  · rw [coreTurn_idle hb] at ht
    cases ht
    exact ⟨b, coreTurn_idle hb⟩
  · obtain ⟨r, w, w', h, h'⟩ := coreTurn_congr (s := s) (s' := { s with work := b }) hb hb rfl rfl rfl
    rw [h] at ht
    cases ht
    exact ⟨w', h'.trans (complete_setWork s r b w w')⟩

theorem writeData_setWork (off : Offset) (d : Word) (s : State) (b : WorkBuffers) :
    writeData off d { s with work := b } = { writeData off d s with work := b } := by
  unfold writeData
  cases locate off <;> cases s.status.busy <;> rfl

/-- No transaction reads or writes the working buffers (R23). -/
theorem transact_setWork (t : Transaction) (s : State) (b : WorkBuffers) :
    transact t { s with work := b } = { transact t s with work := b } := by
  cases t with
  | read off size =>
    simp only [transact]
    split <;> rfl
  | write off size d =>
    simp only [transact, writeData_setWork]
    split <;> rfl

/-- Settles O24: a turn of the CORE stages its result without them, a transaction leaves them as they are, and reset
gives them free values. -/
theorem workingBuffersNeverShow : Obligations.WorkingBuffersNeverShow := by
  intro s t b ht
  rcases step_cases s with ⟨hp, e⟩ | ⟨rest, hp, e⟩ | ⟨tr, rest, hp, e⟩ | ⟨fl, rest, hp, e⟩ <;> rw [e] at ht
  · obtain ⟨w', h⟩ := coreTurn_setWork ht b
    exact ⟨w', (step_port_nil (s := { s with work := b }) hp).trans h⟩
  · obtain ⟨w', h⟩ := coreTurn_setWork ht b
    exact ⟨w', (step_core (s := { s with work := b }) hp).trans h⟩
  · cases ht
    exact ⟨b, (step_bus (s := { s with work := b }) hp).trans (congrArg _ (transact_setWork tr { s with port := rest } b))⟩
  · cases ht
    exact ⟨freeWork s.freeIdx, step_rst (s := { s with work := b }) hp⟩

end Sys2Proof.Safety
end

section
/-! PROOFS. The host beside a running command (10_state.md R29, R30; 20_memory.md R42, R46): between accept and commit a
transaction changes the response port and WIGN alone, so that the command commits what it would have committed. -/

namespace Sys2Proof.Safety

open Sys2Proof.Machine

/-! Transactions while BUSY -/

/-- `s` but for what transactions can change while a command is in progress: the response port and WIGN (R42). -/
def afterHost (resp : Option Response) (wign : Bool) (s : State) : State :=
  { s with hostResp := resp, status := { s.status with wign := wign } }

/-- While a command is in progress a transaction changes only the response port and WIGN (R30, R42). -/
theorem transact_busy {s : State} (hb : s.status.busy = true) (t : Transaction) :
    ∃ resp wign, transact t s = afterHost resp wign s := by
  rcases transact_cases t s with ⟨r, e⟩ | ⟨off, size, d, -, -, e⟩ <;> rw [e]
  · exact ⟨some r, s.status.wign, rfl⟩
  · rcases writeData_cases off d s with e | ⟨-, e⟩ | ⟨hidle, -⟩ | ⟨hidle, -⟩
    · exact ⟨some (.write .ok), s.status.wign, by rw [e]; rfl⟩
    · exact ⟨some (.write .ok), true, by rw [e]; rfl⟩
    · simp [hb] at hidle
    · simp [hb] at hidle

/-- And so does any number of transactions in a row. -/
theorem run_transactions_busy {s : State} (hb : s.status.busy = true) (ts : List Transaction) (p : List PortEvent) :
    ∃ resp wign, run ts.length { s with port := ts.map .bus ++ p } = .next (afterHost resp wign { s with port := p }) := by
  induction ts generalizing s with
  | nil => exact ⟨s.hostResp, s.status.wign, rfl⟩
  | cons t ts ih =>
    obtain ⟨resp, wign, ht⟩ := transact_busy (s := { s with port := ts.map .bus ++ p }) hb t
    obtain ⟨resp', wign', hrun⟩ := ih (s := afterHost resp wign s) hb
    have hstep : step { s with port := (t :: ts).map .bus ++ p } =
        .next (afterHost resp wign { s with port := ts.map .bus ++ p }) := (step_bus rfl).trans (congrArg _ ht)
    exact ⟨resp', wign', (run_succ hstep).trans hrun⟩

/-! The commit -/

/-- `t` has what `u` has of a commit: the registers, RES, ROM, and STATUS but for WIGN (R29). -/
def SameCommit (t u : State) : Prop :=
  t.f = u.f ∧ t.res = u.res ∧ t.rom = u.rom ∧ t.status = { u.status with wign := t.status.wign }

/-- What the host did, and what it will do, does not show in what a turn of the CORE commits (R30). -/
theorem coreTurn_afterHost {s : State} (hb : s.status.busy = true) (resp : Option Response) (wign : Bool)
    (q : List PortEvent) :
    ∃ t u, coreTurn (afterHost resp wign { s with port := q }) = .next t ∧ coreTurn s = .next u ∧ SameCommit t u ∧
      t.port = q := by
  obtain ⟨r, w, w', h, h'⟩ :=
    coreTurn_congr (s := s) (s' := afterHost resp wign { s with port := q }) hb hb rfl rfl rfl
  refine ⟨_, _, h', h, ?_, (coreTurn_frame h').2⟩
  cases r with
  | writes regs res => exact ⟨rfl, rfl, rfl, rfl⟩
  | error e => exact ⟨rfl, rfl, rfl, rfl⟩

/-- `p` begins with a turn of the CORE, or is empty, which comes to the same; after that turn `q` is still to come. -/
def TurnNext (p q : List PortEvent) : Prop := p = .core :: q ∨ (p = [] ∧ q = [])

theorem step_turnNext {s : State} {q : List PortEvent} (h : TurnNext s.port q) :
    step s = coreTurn { s with port := q } := by
  rcases h with h | ⟨h, rfl⟩
  · exact step_core h
  · rw [step_port_nil h, ← h]

/-- A command in progress, any transactions, then a turn of the CORE: it commits what it commits at once. -/
theorem run_transactions_then_turn {s : State} (hb : s.status.busy = true) (ts : List Transaction)
    {p q : List PortEvent} (h : TurnNext p q) :
    ∃ t u, run (ts.length + 1) { s with port := ts.map .bus ++ p } = .next t ∧ coreTurn s = .next u ∧ SameCommit t u ∧
      t.port = q := by
  obtain ⟨resp, wign, hrun⟩ := run_transactions_busy hb ts p
  obtain ⟨t, u, ht, hu, hsame, hport⟩ := coreTurn_afterHost hb resp wign q
  have hstep : step (afterHost resp wign { s with port := p }) = .next t := (step_turnNext h).trans ht
  exact ⟨t, u, (run_add hrun).trans (run_succ hstep), hu, hsame, hport⟩

/-- Settles O23: the run after the transactions and the step without them are turns of the CORE that commit the same. -/
theorem hostCannotDisturbARunningCommand : Obligations.HostCannotDisturbARunningCommand := by
  intro s ts rest hb
  obtain ⟨t, u, hrun, hu, ⟨hf, hres, hrom, hst⟩, hport⟩ :=
    run_transactions_then_turn (s := { s with port := rest }) hb ts (.inl rfl : TurnNext (.core :: rest) rest)
  exact ⟨t, u, hrun, (step_core rfl).trans hu, hf, hres, hrom, hport.trans (coreTurn_frame hu).2.symm, hst⟩

/-- Events without a reset are transactions up to the first turn of the CORE, or to their end. -/
theorem exists_transactions_turnNext {p : List PortEvent} (h : ∀ fl, PortEvent.rst fl ∉ p) :
    ∃ (ts : List Transaction) (p' q : List PortEvent), p = ts.map .bus ++ p' ∧ TurnNext p' q := by
  induction p with
  | nil => exact ⟨[], [], [], rfl, .inr ⟨rfl, rfl⟩⟩
  | cons ev rest ih =>
    cases ev with
    | core => exact ⟨[], _, rest, rfl, .inl rfl⟩
    | rst fl => exact absurd List.mem_cons_self (h fl)
    | bus t =>
      obtain ⟨ts, p', q, rfl, hturn⟩ := ih fun fl hfl => h fl (List.mem_cons_of_mem _ hfl)
      exact ⟨t :: ts, p', q, rfl, hturn⟩

/-- One step for each event and one turn of the CORE more leave an idle block with nothing to come (R28). -/
theorem run_to_idle (n : Nat) {s : State} (hn : s.port.length = n) :
    ∃ t, run (n + 1) s = .next t ∧ t.status.busy = false ∧ t.port = [] := by
  induction n generalizing s with
  | zero =>
    have hp : s.port = [] := List.length_eq_zero_iff.mp hn
    obtain ⟨t, ht⟩ := coreTurn_total s
    exact ⟨t, run_succ ((step_port_nil hp).trans ht), coreTurn_not_busy ht, (coreTurn_frame ht).2.trans hp⟩
  | succ n ih =>
    obtain ⟨u, hu, -, hport⟩ := step_next s
    obtain ⟨t, ht, hidle⟩ := ih (s := u) (by rw [hport, List.length_tail, hn, Nat.add_sub_cancel])
    exact ⟨t, (run_succ hu).trans ht, hidle⟩

/-- Settles O16: the commit comes at the first turn of the CORE, after the transactions before it. -/
theorem everyAcceptedCommandCommits : Obligations.EveryAcceptedCommandCommits := by
  refine ⟨fun s hb hrst => ?_, fun s => run_to_idle _ rfl⟩
  obtain ⟨ts, p, q, hport, hturn⟩ := exists_transactions_turnNext hrst
  obtain ⟨t, u, hrun, hu, ⟨hf, hres, hrom, hst⟩, -⟩ := run_transactions_then_turn hb ts hturn
  obtain ⟨e, hcommitted⟩ := coreTurn_commits hb hu
  rw [← hport] at hrun
  refine ⟨ts.length, t, u, by simp [hport], hrun, hu, hf, hres, hrom, ?_, ?_, hst⟩
  · rw [hst, hcommitted]; rfl
  · rw [hst, hcommitted]; rfl

end Sys2Proof.Safety
end

section
/-! PROOFS. Reads of the register window (10_state.md R25, R30; 20_memory.md R35, R36, R38, R40). -/

namespace Sys2Proof.Machine

/-- A read of a word at an aligned offset answers what stands there and changes nothing else (R38 to R41). -/
theorem step_read_aligned {s : State} {off : Offset} {rest : List PortEvent} (haligned : off.toNat % 4 = 0)
    (hp : s.port = .bus (.read off 4) :: rest) :
    step s = .next { s with port := rest, hostResp := some (.read (readData s off) .ok) } := by
  rw [step_bus hp, transact, if_pos (by simp [legalAccess, haligned])]
  rfl

/-! The field registers in the window -/

theorem toNat_fieldOffset (r : Reg) {w : Nat} (hw : w < 6) : (fieldOffset r w).toNat = 0x20 * r.toNat + 4 * w := by
  rw [fieldOffset, BitVec.toNat_ofNat]
  omega

theorem fieldOffset_aligned (r : Reg) {w : Nat} (hw : w < 6) : (fieldOffset r w).toNat % 4 = 0 := by
  rw [toNat_fieldOffset r hw]
  omega

/-- The word `w` of `F[r]` stands at its offset (R35). -/
theorem locate_fieldOffset (r : Reg) {w : Nat} (hw : w < 6) : locate (fieldOffset r w) = .fieldWord r w := by
  have hlow : 0x20 * r.toNat + 4 * w < 0x200 := by omega
  have hword : (0x20 * r.toNat + 4 * w) % 0x20 / 4 = w := by omega
  have hreg : (0x20 * r.toNat + 4 * w) / 0x20 = r.toNat := by omega
  rw [locate, toNat_fieldOffset r hw, if_pos hlow, hword, if_pos hw, hreg, BitVec.ofNat_toNat, BitVec.setWidth_eq]

theorem readData_fieldOffset (s : State) (r : Reg) {w : Nat} (hw : w < 6) :
    readData s (fieldOffset r w) = getWord (readReg s.f r) w := by
  rw [readData, locate_fieldOffset r hw]

/-- The bits of a field register's word, which above bit 162 are 0 (R36, R38). -/
theorem getLsbD_getWord (v : Elem) (w : Nat) {j : Nat} (hj : j < 32) :
    (getWord v w).getLsbD j = v.getLsbD (32 * w + j) := by
  simp [getWord, hj]

/-! STATUS in the window -/

theorem locate_eq_status_iff (off : Offset) : locate off = .status ↔ off = 0x204 := by
  constructor
  · intro h
    unfold locate at h
    split_ifs at h with _ _ _ hstatus
    exact hstatus
  · rintro rfl
    decide

/-- With the same registers and the same RES every read but that of STATUS answers the same (R30). -/
theorem readData_of_same_regs {s t : State} (hf : t.f = s.f) (hres : t.res = s.res) (off : Offset) :
    readData t off = if off = 0x204 then statusWord t.status else readData s off := by
  have hstatus := locate_eq_status_iff off
  unfold readData
  cases hl : locate off with
  | status => rw [if_pos (hstatus.mp hl)]
  | fieldWord | cmd | res | reserved =>
    have hoff : off ≠ 0x204 := hstatus.not.mp (by simp [hl])
    simp only [if_neg hoff, hf, hres]

end Sys2Proof.Machine

namespace Sys2Proof.Safety

open Sys2Proof.Machine

/-- Settles O27: the read answers the word of the register, which by the invariant is the latched one while BUSY. -/
theorem fieldWordReadIsZeroExtended : Obligations.FieldWordReadIsZeroExtended := by
  intro s r w rest hw hp
  have hstep := step_read_aligned (fieldOffset_aligned r hw) hp
  rw [readData_fieldOffset s r hw] at hstep
  refine ⟨getWord (readReg s.f r) w, hstep, fun j hj => getLsbD_getWord _ w hj, fun hinv hb j hj => ?_⟩
  rw [latchedF, hinv.latchedIsCurrent hb]
  exact getLsbD_getWord _ w hj

/-- After an accept and any transactions the command is still in progress, with the registers and RES as they were (R27, R30). -/
theorem run_accept_then_transactions {s : State} (hidle : s.status.busy = false) (w : Word) (ts : List Transaction)
    (p : List PortEvent) :
    ∃ t, run (ts.length + 1) { s with port := .bus (.write 0x200 4 w) :: (ts.map .bus ++ p) } = .next t ∧
      t.port = p ∧ t.status.busy = true ∧ t.f = s.f ∧ t.res = s.res ∧ t.latchWord = w ∧ t.latchF = s.f := by
  have haccept := transact_cmd_of_idle (s := { s with port := ts.map .bus ++ p }) hidle w
  obtain ⟨resp, wign, hrun⟩ := run_transactions_busy (s := respond (.write .ok) (accept w s)) rfl ts p
  have hstep := (step_bus (s := { s with port := .bus (.write 0x200 4 w) :: (ts.map .bus ++ p) }) rfl).trans
    (congrArg _ haccept)
  exact ⟨_, (run_succ hstep).trans hrun, rfl, rfl, rfl, rfl, rfl, rfl⟩

/-- Settles O30: with the registers and RES as before the accept, every read but that of STATUS answers as before. -/
theorem readsWhileBusyShowTheValuesBeforeAccept : Obligations.ReadsWhileBusyShowTheValuesBeforeAccept := by
  intro s w ts off rest hidle haligned
  obtain ⟨t, hrun, hport, hbusy, hf, hres, hword, hlatch⟩ :=
    run_accept_then_transactions hidle w ts (.bus (.read off 4) :: rest)
  have hread := step_read_aligned haligned hport
  rw [readData_of_same_regs hf hres off] at hread
  exact ⟨t, readData s off, hrun, hbusy, hf, hres, hword, hlatch, step_read_aligned haligned rfl, hread⟩

/-- Settles O31: STATUS is read bit by bit, and ECODE code by code. -/
theorem statusWordLayout : Obligations.StatusWordLayout := by
  intro ⟨busy, done, err, wign, ecode⟩
  revert busy done err wign
  rcases ecode with _ | _ | _ | _ <;> decide

end Sys2Proof.Safety
end

section
/-! PROOFS. The map of the register window and its writes (20_memory.md R33, R35, R37, R39 to R44, R118, R124): what
stands at each aligned offset, and what an access to it does in one step. -/

namespace Sys2Proof.Machine

/-! The window map (R35) -/

/-- The offsets at which a location stands, as R35 lists them. -/
def StandsAt (off : Offset) : Location → Prop
  | .fieldWord r w => w < 6 ∧ off.toNat = 0x20 * r.toNat + 4 * w
  | .cmd => off.toNat = 0x200
  | .status => off.toNat = 0x204
  | .res => off.toNat = 0x208
  | .reserved => (off.toNat < 0x200 ∧ 0x18 ≤ off.toNat % 0x20) ∨ 0x20C ≤ off.toNat

/-- What the map places at an aligned offset stands there by R35's list. -/
theorem standsAt_locate {off : Offset} (haligned : off.toNat % 4 = 0) : StandsAt off (locate off) := by
  unfold locate
  split_ifs with hslot hword hcmd hstatus hres
  · exact ⟨hword, by rw [BitVec.toNat_ofNat]; omega⟩
  · exact .inl ⟨hslot, by omega⟩
  · exact congrArg BitVec.toNat hcmd
  · exact congrArg BitVec.toNat hstatus
  · exact congrArg BitVec.toNat hres
  · exact .inr (by bv_omega)

/-- What stands at an offset by R35's list, the map places there. -/
theorem locate_of_standsAt {off : Offset} {l : Location} (h : StandsAt off l) : locate off = l := by
  cases l with
  | fieldWord r w =>
    obtain ⟨hw, hoff⟩ := h
    obtain rfl : off = fieldOffset r w := BitVec.eq_of_toNat_eq (hoff.trans (toNat_fieldOffset r hw).symm)
    exact locate_fieldOffset r hw
  | cmd =>
    obtain rfl : off = 0x200 := BitVec.eq_of_toNat_eq h
    rfl
  | status =>
    obtain rfl : off = 0x204 := BitVec.eq_of_toNat_eq h
    rfl
  | res =>
    obtain rfl : off = 0x208 := BitVec.eq_of_toNat_eq h
    rfl
  | reserved =>
    unfold locate
    rcases h with ⟨hslot, hword⟩ | habove
    · rw [if_pos hslot, if_neg (by omega)]
    · rw [if_neg (by omega), if_neg (by bv_omega), if_neg (by bv_omega), if_neg (by bv_omega)]

theorem locate_eq_iff {off : Offset} (haligned : off.toNat % 4 = 0) (l : Location) : locate off = l ↔ StandsAt off l :=
  ⟨fun h => h ▸ standsAt_locate haligned, locate_of_standsAt⟩

/-! One step, for each kind of access -/

/-- A write of a word at an aligned offset has its effect and is answered OK (R37 to R42). -/
theorem step_write_aligned {s : State} {off : Offset} {d : Word} {rest : List PortEvent} (haligned : off.toNat % 4 = 0)
    (hp : s.port = .bus (.write off 4 d) :: rest) :
    step s = .next (respond (.write .ok) (writeData off d { s with port := rest })) := by
  rw [step_bus hp, transact, if_pos (by simp [legalAccess, haligned])]

/-- The locations that ignore writes (R40, R41). -/
def ignoresWrites : List Location := [.status, .res, .reserved]

/-- A write to one of them changes nothing and does not set WIGN, busy or not (R40, R41). -/
theorem step_write_ignored {s : State} {off : Offset} {d : Word} {rest : List PortEvent} (haligned : off.toNat % 4 = 0)
    (hloc : locate off ∈ ignoresWrites) (hp : s.port = .bus (.write off 4 d) :: rest) :
    step s = .next { s with port := rest, hostResp := some (.write .ok) } := by
  rw [step_write_aligned haligned hp, writeData]
  cases hl : locate off with
  | status | res | reserved => rfl
  | fieldWord | cmd => simp [hl, ignoresWrites] at hloc

/-- While a command is in progress a write to any other location is dropped (R42). -/
theorem step_write_dropped {s : State} {off : Offset} {d : Word} {rest : List PortEvent} (haligned : off.toNat % 4 = 0)
    (hloc : locate off ∉ ignoresWrites) (hb : s.status.busy = true) (hp : s.port = .bus (.write off 4 d) :: rest) :
    step s = .next (respond (.write .ok) (dropWrite { s with port := rest })) := by
  rw [step_write_aligned haligned hp, writeData]
  cases hl : locate off with
  | status | res | reserved => simp [hl, ignoresWrites] at hloc
  | fieldWord | cmd => simp [hb]

/-- A write to a field register of an idle block (R37). -/
theorem step_write_fieldOffset {s : State} {r : Reg} {w : Nat} {d : Word} {rest : List PortEvent} (hw : w < 6)
    (hb : s.status.busy = false) (hp : s.port = .bus (.write (fieldOffset r w) 4 d) :: rest) :
    step s = .next (respond (.write .ok) (writeFieldWord r w d { s with port := rest })) := by
  rw [step_write_aligned (fieldOffset_aligned r hw) hp, writeData, locate_fieldOffset r hw]
  simp [hb]

theorem not_legalAccess {off : Offset} {size : Nat} (h : size ≠ 4 ∨ off.toNat % 4 ≠ 0) :
    ¬legalAccess off size = true := by
  simpa [legalAccess, or_iff_not_imp_left] using h

/-! The words of a field register (R36, R37) -/

/-- The bits of a field register's word `w` (R36). -/
theorem getLsbD_wordMask (w : Nat) {j : Nat} (hj : j < 163) :
    (wordMask w).getLsbD j = decide (32 * w ≤ j ∧ j < 32 * w + 32) := by
  have hmask : (0xFFFFFFFF : Elem) = (BitVec.allOnes 32).setWidth 163 := rfl
  simp only [wordMask, hmask, BitVec.getLsbD_shiftLeft, BitVec.getLsbD_setWidth, BitVec.getLsbD_allOnes, hj]
  grind

/-- A field register after its word `w` is replaced, bit by bit (R37). -/
theorem getLsbD_putWord (v : Elem) (w : Nat) (d : Word) {j : Nat} (hj : j < 163) :
    (putWord v w d).getLsbD j =
      if 32 * w ≤ j ∧ j < 32 * w + 32 then d.getLsbD (j - 32 * w) else v.getLsbD j := by
  simp only [putWord, BitVec.getLsbD_or, BitVec.getLsbD_and, BitVec.getLsbD_not, getLsbD_wordMask w hj,
    BitVec.getLsbD_shiftLeft, BitVec.getLsbD_setWidth, hj]
  grind

/-- A word taken from `v` brings exactly its own bits of `v` (R36, R37). -/
theorem getLsbD_putWord_getWord (u v : Elem) (k : Nat) {j : Nat} (hj : j < 163) :
    (putWord u k (getWord v k)).getLsbD j = if j / 32 = k then v.getLsbD j else u.getLsbD j := by
  rw [getLsbD_putWord u k _ hj]
  by_cases hk : j / 32 = k
  · rw [if_pos (by omega), if_pos hk, getLsbD_getWord v k (by omega), Nat.add_sub_cancel' (by omega)]
  · rw [if_neg (by omega), if_neg hk]

/-! The words of a value written one after the other (R118) -/

/-- The write of word `k` of `v` to `F[r]`. -/
def wordWrite (r : Reg) (v : Elem) (k : Nat) : PortEvent := .bus (.write (fieldOffset r k) 4 (getWord v k))

/-- What that write does to an idle block. -/
def storeWord (r : Reg) (v : Elem) (s : State) (k : Nat) : State :=
  respond (.write .ok) (writeFieldWord r k (getWord v k) s)

theorem step_wordWrite {s : State} {r : Reg} {v : Elem} {k : Nat} {rest : List PortEvent} (hk : k < 6)
    (hb : s.status.busy = false) (hp : s.port = wordWrite r v k :: rest) :
    step s = .next (storeWord r v { s with port := rest } k) :=
  step_write_fieldOffset hk hb hp

/-- Stores of words of `v` give the register the bits of `v` in those words (R37). -/
theorem getLsbD_foldl_storeWord (r : Reg) (v : Elem) (ks : List Nat) (s : State) {j : Nat} (hj : j < 163) :
    (readReg (ks.foldl (storeWord r v) s).f r).getLsbD j =
      if j / 32 ∈ ks then v.getLsbD j else (readReg s.f r).getLsbD j := by
  induction ks generalizing s with
  | nil => simp
  | cons k ks ih =>
    have hstore : readReg (storeWord r v s k).f r = putWord (readReg s.f r) k (getWord v k) := by simp [storeWord]
    rw [List.foldl_cons, ih, hstore, getLsbD_putWord_getWord _ v k hj]
    by_cases hmem : j / 32 ∈ ks <;> simp [hmem]

theorem readReg_foldl_storeWord_of_ne {r q : Reg} (hq : q ≠ r) (v : Elem) (ks : List Nat) (s : State) :
    readReg (ks.foldl (storeWord r v) s).f q = readReg s.f q := by
  induction ks generalizing s with
  | nil => rfl
  | cons k ks ih => rw [List.foldl_cons, ih]; simp [storeWord, readReg_writeReg, hq]

/-- Stores of all six words load the register (R36). -/
theorem readReg_foldl_storeWord_six (r q : Reg) (v : Elem) (s : State) :
    readReg ((List.range 6).foldl (storeWord r v) s).f q = if q = r then v else readReg s.f q := by
  split_ifs with hq
  · subst hq
    apply BitVec.eq_of_getLsbD_eq
    intro j hj
    rw [getLsbD_foldl_storeWord q v _ s hj, if_pos (by rw [List.mem_range]; omega)]
  · exact readReg_foldl_storeWord_of_ne hq v _ s

/-! The bus (R33, R44) -/

/-- Byte lane `k` holds the bits from `8k` on (R44). -/
theorem getLsbD_byteLane (d : Word) (k : Nat) {j : Nat} (hj : j < 8) :
    (byteLane d k).getLsbD j = d.getLsbD (8 * k + j) := by
  simp [byteLane, hj]

theorem wordOfLanes_byteLane (d : Word) :
    wordOfLanes (byteLane d 0) (byteLane d 1) (byteLane d 2) (byteLane d 3) = d := by
  apply BitVec.eq_of_getLsbD_eq
  intro j hj
  simp only [wordOfLanes, byteLane, BitVec.getLsbD_append, BitVec.getLsbD_extractLsb']
  grind

/-- An address of the window selects the offset it is made of, and no other address selects one (R33, R124). -/
theorem windowOffset_eq_some_iff (addr : Nat) (off : Offset) :
    windowOffset addr = some off ↔ addr = Config.base + off.toNat := by
  have hoff : off.toNat < 4096 := off.isLt
  unfold windowOffset
  split_ifs with h
  · rw [Option.some_inj, ← BitVec.toNat_inj, BitVec.toNat_ofNat]
    omega
  · simp only [false_iff]
    omega

end Sys2Proof.Machine

namespace Sys2Proof.Safety

open Sys2Proof.Machine

/-- The writes of any words of `v`, one after the other, do what their stores do (R37). -/
theorem run_wordWrites {s : State} (hb : s.status.busy = false) (r : Reg) (v : Elem) {ks : List Nat}
    (hks : ∀ k ∈ ks, k < 6) (rest : List PortEvent) :
    run ks.length { s with port := ks.map (wordWrite r v) ++ rest } =
      .next (ks.foldl (storeWord r v) { s with port := rest }) := by
  induction ks generalizing s with
  | nil => rfl
  | cons k ks ih =>
    obtain ⟨hk, hks⟩ := List.forall_mem_cons.mp hks
    have hstep := step_wordWrite (s := { s with port := (k :: ks).map (wordWrite r v) ++ rest }) hk hb rfl
    exact (run_succ hstep).trans (ih (s := storeWord r v s k) hb hks)

/-- Settles O36: the map is R35's list, location by location. -/
theorem windowMapIsExact : Obligations.WindowMapIsExact := fun _ haligned =>
  ⟨fun r w => locate_eq_iff haligned (.fieldWord r w), locate_eq_iff haligned .cmd, locate_eq_iff haligned .status,
    locate_eq_iff haligned .res, locate_eq_iff haligned .reserved⟩

/-- Settles O26: the step replaces the word in the register, and `getLsbD_putWord` says which bits that changes. -/
theorem fieldWordWriteUpdatesThatWordAlone : Obligations.FieldWordWriteUpdatesThatWordAlone := by
  intro s r w d rest hw hb hp
  refine ⟨_, step_write_fieldOffset hw hb hp, fun j hj => ?_, fun q hq => ?_, rfl⟩
  · simp only [respond_f, writeFieldWord_f, readReg_writeReg_same]
    exact getLsbD_putWord _ w d hj
  · simp [readReg_writeReg, hq]

/-- Settles O28: the six writes are six stores, whose words cover the register's 163 bits. -/
theorem sixWordWritesLoadARegister : Obligations.SixWordWritesLoadARegister := by
  intro s r v rest hb
  exact ⟨_, run_wordWrites hb r v (fun _ => List.mem_range.mp) rest,
    fun q => readReg_foldl_storeWord_six r q v { s with port := rest }, rfl⟩

/-- Settles O29: both stand at aligned offsets and ignore writes. -/
theorem statusAndResAreReadOnly : Obligations.StatusAndResAreReadOnly := by
  intro s rest d
  refine ⟨step_read_aligned (by decide), step_read_aligned (by decide), ?_⟩
  rintro (hp | hp)
  · exact step_write_ignored (by decide) (by decide) hp
  · exact step_write_ignored (by decide) (by decide) hp

/-- Settles O32: the write is the accept of `cmdWriteAcceptsTheCommand`, whatever the word. -/
theorem cmdTakesEveryWordAndReadsZero : Obligations.CmdTakesEveryWordAndReadsZero := by
  intro s rest d
  refine ⟨fun hb hp => ?_, step_read_aligned (by decide)⟩
  obtain ⟨hidle, -⟩ := cmdWriteAcceptsTheCommand s d rest hp
  exact ⟨_, hidle hb, rfl, rfl, rfl⟩

/-- Settles O33: by the window map such an offset is reserved, which reads 0 and ignores writes. -/
theorem reservedOffsetsReadZeroIgnoreWrites : Obligations.ReservedOffsetsReadZeroIgnoreWrites := by
  intro s off d rest haligned hreserved
  have hl : locate off = .reserved := (locate_eq_iff haligned .reserved).mpr hreserved
  refine ⟨fun hp => ?_, step_write_ignored haligned (by rw [hl]; decide)⟩
  rw [step_read_aligned haligned hp, readData, hl]

/-- Settles O34: neither a field word nor CMD is among the locations that ignore writes. -/
theorem writeWhileBusyIsDropped : Obligations.WriteWhileBusyIsDropped := by
  rintro s off d rest hb (⟨r, w, hw, rfl⟩ | rfl)
  · have hl : locate (BitVec.ofNat 12 (0x20 * r.toNat + 4 * w)) = .fieldWord r w := locate_fieldOffset r hw
    exact step_write_dropped (fieldOffset_aligned r hw) (by simp [hl, ignoresWrites]) hb
  · exact step_write_dropped (by decide) (by decide) hb

/-- Settles O35: a transaction that is not a legal access only answers. -/
theorem badAccessIsAnsweredErrorOnly : Obligations.BadAccessIsAnsweredErrorOnly := by
  intro s off size d rest hbad
  refine ⟨fun hp => ?_, fun hp => ?_⟩
  · rw [step_bus hp, transact, if_neg (not_legalAccess hbad)]; rfl
  · rw [step_bus hp, transact, if_neg (not_legalAccess hbad)]; rfl

/-- Settles O37: BASE counts pages of 4 KiB, and each of the other clauses is a lemma above. -/
theorem busAddressesAndByteLanes : Obligations.BusAddressesAndByteLanes :=
  ⟨Nat.mul_mod_right 4096 _, windowOffset_eq_some_iff, fun d k _ _ hj => getLsbD_byteLane d k hj, wordOfLanes_byteLane⟩

end Sys2Proof.Safety
end

section
/-! PROOFS. A command written to CMD and committed at once (20_memory.md R39, R45, R46), and FINC issued twice
(41_field.md R82). -/

namespace Sys2Proof.Safety

open Sys2Proof.Machine

/-- The run of a command that is written to CMD of an idle block and commits before the next transaction is that
command's meaning in the state after the accept (R28, R46). -/
theorem run_issue {s : State} {w : Word} {i : Instr} {rest : List PortEvent} (hb : s.status.busy = false)
    (hi : decode w = .ok i) (hp : s.port = issue w ++ rest) :
    run 2 s = exec i (respond (.write .ok) (accept w { s with port := rest })) := by
  have haccept : step s = .next (respond (.write .ok) (accept w { s with port := .core :: rest })) :=
    (step_bus hp).trans (congrArg _ (transact_cmd_of_idle (s := { s with port := .core :: rest }) hb w))
  have hturn : step (respond (.write .ok) (accept w { s with port := .core :: rest })) =
      exec i (respond (.write .ok) (accept w { s with port := rest })) :=
    (step_core rfl).trans (coreTurn_of_decode rfl hi)
  obtain ⟨t, ht⟩ := exec_total i (respond (.write .ok) (accept w { s with port := rest }))
  exact (run_succ haccept).trans ((run_succ (hturn.trans ht)).trans ht.symm)

theorem decode_encode_finc (fd fa : Reg) : decode (encode (.finc fd fa)) = .ok (.finc fd fa) := by
  rw [encode, decode, fieldsOf_wordOf]
  rfl

/-- FINC issued to an idle block adds 1 to its register, and the block is idle again (R82). -/
theorem run_issue_finc {s : State} {r : Reg} {rest : List PortEvent} (hb : s.status.busy = false)
    (hp : s.port = issue (encode (.finc r r)) ++ rest) :
    ∃ t, run 2 s = .next t ∧ t.f = writeReg s.f r (readReg s.f r ^^^ 1) ∧
      t.status = ⟨false, true, false, false, none⟩ ∧ t.port = rest :=
  ⟨_, run_issue hb (decode_encode_finc r r) hp, rfl, rfl, rfl⟩

/-- A register written with a value and then with what it held is as before. -/
theorem writeReg_restore (f : Vector Elem 16) (r : Reg) (v : Elem) :
    writeReg (writeReg f r v) r (readReg f r) = f := by
  apply regs_ext
  intro q
  rw [readReg_writeReg, readReg_writeReg]
  split_ifs with hq
  · rw [hq]
  · rfl

/-- Settles O52: each of the two runs adds 1, and 1 added twice is nothing added. -/
theorem fincIssuedTwiceRestores : Obligations.FincIssuedTwiceRestores := by
  intro s r hb
  obtain ⟨t, ht, htf, htst, htp⟩ := run_issue_finc
    (s := { s with port := issue (encode (.finc r r)) ++ issue (encode (.finc r r)) }) hb rfl
  obtain ⟨u, hu, huf, hust, -⟩ := run_issue_finc (s := t) (r := r) (rest := []) (by rw [htst]) htp
  refine ⟨t, u, ht, (run_add ht).trans hu, by rw [htf, readReg_writeReg_same], ?_, hust⟩
  have hxor : (readReg s.f r ^^^ 1) ^^^ 1 = readReg s.f r := by rw [BitVec.xor_assoc, BitVec.xor_self, BitVec.xor_zero]
  rw [huf, htf, readReg_writeReg_same, hxor, writeReg_restore]

end Sys2Proof.Safety
end

section
/-! PROOFS. The decoder and the encoder are inverse to each other, and the words the decoder accepts are those of the
opcode table (30_encoding.md R51 to R58). -/

namespace Sys2Proof

/-! The checks of R57, each by what it lets through -/

@[simp] theorem checkReg_reg (r : Reg) : checkReg .reg r = none := rfl

@[simp] theorem checkReg_zero_eq_none_iff (r : Reg) : checkReg .zero r = none ↔ r = 0 := by
  simp [checkReg]

@[simp] theorem checkReg_point_eq_none_iff (r : Reg) : checkReg .point r = none ↔ oddReg r = false := by
  simp [checkReg]

@[simp] theorem checkImm_imm (imm : BitVec 8) : checkImm .imm imm = none := rfl

@[simp] theorem checkImm_zero_eq_none_iff (imm : BitVec 8) : checkImm .zero imm = none ↔ imm = 0 := by
  simp [checkImm]

@[simp] theorem checkSelector_eq_none_iff (mn : Mnemonic) (imm : BitVec 8) :
    checkSelector mn imm = none ↔ (mn = .LDC → imm.toNat ≤ 5) := by
  simp [checkSelector]

/-- A word's fields pass when each of the five checks does (R57). -/
theorem checkFields_eq_none_iff (row : OpcodeRow) (c : Fields) :
    checkFields row c = none ↔ checkReg row.rd c.rd = none ∧ checkReg row.ra c.ra = none ∧
      checkReg row.rb c.rb = none ∧ checkImm row.imm c.imm = none ∧ checkSelector row.mnemonic c.imm = none := by
  simp [checkFields]

/-! The decoder, by the rows of the opcode map -/

/-- No two rows of R55 have the same opcode. -/
theorem rowOf_opc {row : OpcodeRow} (h : row ∈ opcodeMap) : rowOf row.opc = some row := by
  revert row
  decide

/-- The words that decode, and what they decode to (R57): `decode_ok` is the forward direction. -/
theorem decode_eq_ok_iff (w : Word) (i : Instr) :
    decode w = .ok i ↔ (fieldsOf w).rsv = 0 ∧ ∃ row ∈ opcodeMap, row.opc = (fieldsOf w).opc ∧
      checkFields row (fieldsOf w) = none ∧ i = build row.mnemonic (fieldsOf w) := by
  constructor
  · intro h
    obtain ⟨hrsv, row, hmem, hopc, -, hchecks, hi⟩ := decode_ok h
    exact ⟨hrsv, row, hmem, hopc, hchecks, hi⟩
  · rintro ⟨hrsv, row, hmem, hopc, hchecks, rfl⟩
    simp [decode, hrsv, ← hopc, rowOf_opc hmem, hchecks]

/-- A word whose fields fail a check of their row is Illegal (R57). -/
theorem decode_error_of_checkFields {w : Word} {row : OpcodeRow} (hrow : rowOf (fieldsOf w).opc = some row)
    (hfail : checkFields row (fieldsOf w) ≠ none) : ∃ cause, decode w = .error cause := by
  cases h : decode w with
  | error cause => exact ⟨cause, rfl⟩
  | ok i =>
    obtain ⟨-, row', -, -, hrow', hchecks, -⟩ := decode_ok h
    obtain rfl : row' = row := Option.some.inj (hrow'.symm.trans hrow)
    exact absurd hchecks hfail

/-! The encoder -/

/-- A word written from fields that pass their row's checks decodes to what the row makes of them (R51, R57). -/
theorem decode_wordOf {c : Fields} {row : OpcodeRow} (hrsv : c.rsv = 0) (hrow : rowOf c.opc = some row)
    (hchecks : checkFields row c = none) : decode (wordOf c) = .ok (build row.mnemonic c) := by
  simp [decode, fieldsOf_wordOf, hrsv, hrow, hchecks]

theorem evenReg_eq_true_iff (r : Reg) : evenReg r = true ↔ oddReg r = false := by
  simp [evenReg, oddReg]

theorem validSelector_eq_true_iff (sel : BitVec 8) : validSelector sel = true ↔ sel.toNat ≤ 5 :=
  decide_eq_true_iff

/-- What a row makes of fields that pass its checks is well-formed (R53, R54, R57). -/
theorem wellFormed_build {row : OpcodeRow} (hmem : row ∈ opcodeMap) {c : Fields} (hchecks : checkFields row c = none) :
    (build row.mnemonic c).wellFormed = true := by
  rw [checkFields_eq_none_iff] at hchecks
  obtain ⟨hrd, hra, hrb, -, hsel⟩ := hchecks
  rw [checkSelector_eq_none_iff] at hsel
  fin_cases hmem <;>
    simp_all [build, Instr.wellFormed, evenReg_eq_true_iff, validSelector_eq_true_iff]

/-- Fields that pass a row's checks are those that the encoder writes: what it leaves 0 the row marks `0` (R55, R56). -/
theorem encode_build {row : OpcodeRow} (hmem : row ∈ opcodeMap) {c : Fields} (hopc : row.opc = c.opc) (hrsv : c.rsv = 0)
    (hchecks : checkFields row c = none) : encode (build row.mnemonic c) = wordOf c := by
  rw [checkFields_eq_none_iff] at hchecks
  obtain ⟨hrd, hra, hrb, himm, -⟩ := hchecks
  rcases c with ⟨opc, rd, ra, rb, imm, rsv⟩
  fin_cases hmem <;>
    simp_all [build, encode]

/-! The rows of spec/opcode_table.json -/

/-- The fields of a word, each masked with the field of the same name. -/
def Fields.and (c m : Fields) : Fields :=
  ⟨c.opc &&& m.opc, c.rd &&& m.rd, c.ra &&& m.ra, c.rb &&& m.rb, c.imm &&& m.imm, c.rsv &&& m.rsv⟩

theorem wordOf_and (c m : Fields) : wordOf c &&& wordOf m = wordOf (c.and m) := by
  apply BitVec.eq_of_getLsbD_eq
  intro k hk
  simp only [wordOf, Fields.and, BitVec.getLsbD_and, BitVec.getLsbD_append]
  grind

theorem wordOf_inj {c c' : Fields} : wordOf c = wordOf c' ↔ c = c' :=
  ⟨fun h => by rw [← fieldsOf_wordOf c, h, fieldsOf_wordOf], congrArg wordOf⟩

/-- The bits of a register field that its role fixes to 0: all of a field marked `0`, bit 0 of a point (R53, R56). -/
def Role.regMask : Role → Reg
  | .zero => BitVec.allOnes 4
  | .point => 1
  | .reg => 0
  | .imm => 0

/-- The bits of the immediate field that its role fixes to 0 (R56). -/
def Role.immMask : Role → BitVec 8
  | .zero => BitVec.allOnes 8
  | .point => 0
  | .reg => 0
  | .imm => 0

/-- The bits of a word that its row fixes: the opcode, RSV, and those that a field's role fixes (R55, R56). -/
def OpcodeRow.mask (row : OpcodeRow) : Fields :=
  ⟨BitVec.allOnes 8, row.rd.regMask, row.ra.regMask, row.rb.regMask, row.imm.immMask, BitVec.allOnes 4⟩

theorem and_regMask_eq_zero_iff (role : Role) (r : Reg) : r &&& role.regMask = 0 ↔ checkReg role r = none := by
  cases role with
  | zero => rw [checkReg_zero_eq_none_iff, Role.regMask, BitVec.and_allOnes]
  | point => rw [checkReg_point_eq_none_iff]; revert r; decide
  | reg | imm => simp [Role.regMask, checkReg]

theorem and_immMask_eq_zero_iff (role : Role) (imm : BitVec 8) : imm &&& role.immMask = 0 ↔ checkImm role imm = none := by
  cases role with
  | zero => rw [checkImm_zero_eq_none_iff, Role.immMask, BitVec.and_allOnes]
  | point | reg | imm => simp [Role.immMask, checkImm]

/-- A word masked by a row is the row's opcode alone exactly when RSV is 0, the opcode is the row's and the row's checks
pass, but that of the selector, which no mask can state. -/
theorem and_mask_eq_iff (row : OpcodeRow) (w : Word) :
    w &&& wordOf row.mask = wordOf { opc := row.opc } ∧ (row.mnemonic = .LDC → (fieldsOf w).imm.toNat ≤ 5) ↔
      (fieldsOf w).rsv = 0 ∧ row.opc = (fieldsOf w).opc ∧ checkFields row (fieldsOf w) = none := by
  have hfields : w &&& wordOf row.mask = wordOf { opc := row.opc } ↔ (fieldsOf w).and row.mask = { opc := row.opc } := by
    rw [← wordOf_inj, ← wordOf_and, wordOf_fieldsOf]
  rw [hfields]
  simp only [Fields.and, OpcodeRow.mask, Fields.mk.injEq, BitVec.and_allOnes, and_regMask_eq_zero_iff,
    and_immMask_eq_zero_iff, checkFields_eq_none_iff, checkSelector_eq_none_iff, eq_comm (a := row.opc)]
  tauto

end Sys2Proof

namespace Sys2Proof.Safety

/-- The row of spec/opcode_table.json that a row of R55 stands for. -/
def tableRowOf (row : OpcodeRow) : TableRow := ⟨row.mnemonic, wordOf { opc := row.opc }, wordOf row.mask⟩

/-- spec/opcode_table.json has the patterns and masks that the roles of R55 give. -/
theorem opcodeTable_eq_map : opcodeTable = opcodeMap.map tableRowOf := rfl

theorem mnemonicOf_build (mn : Mnemonic) (c : Fields) : mnemonicOf (build mn c) = mn := by
  cases mn <;> rfl

/-- Settles O1: the fields that the encoder writes pass the checks of their row, a point field by its even number and a
selector by its bound. -/
theorem decodeOfEncodeIsTheCommand : Obligations.DecodeOfEncodeIsTheCommand := by
  intro i h
  cases i with
  | ldc | pisid | ponc | pdbl | padd | pmul =>
    refine (decode_wordOf rfl rfl ?_).trans rfl
    simpa [checkFields_eq_none_iff, Instr.wellFormed, evenReg_eq_true_iff, validSelector_eq_true_iff, and_assoc] using h
  | _ => exact (decode_wordOf rfl rfl rfl).trans rfl

/-- Settles O2: the word is that of its fields, which are what the encoder writes of the command. -/
theorem decodedWordIsItsEncoding : Obligations.DecodedWordIsItsEncoding := by
  intro w i h
  obtain ⟨hrsv, row, hmem, hopc, hchecks, rfl⟩ := (decode_eq_ok_iff w i).mp h
  exact ⟨wellFormed_build hmem hchecks, (encode_build hmem hopc hrsv hchecks).trans (wordOf_fieldsOf w)⟩

/-- Settles O3: a row's mask and pattern, and the bound on LDC's selector, say what the row's checks say. -/
theorem decoderAcceptsExactlyTheTableWords : Obligations.DecoderAcceptsExactlyTheTableWords := by
  intro w mn
  rw [opcodeTable_eq_map]
  constructor
  · rintro ⟨i, hi, rfl⟩
    obtain ⟨hrsv, row, hmem, hopc, hchecks, rfl⟩ := (decode_eq_ok_iff w i).mp hi
    rw [mnemonicOf_build]
    exact ⟨tableRowOf row, List.mem_map_of_mem hmem, rfl, (and_mask_eq_iff row w).mpr ⟨hrsv, hopc, hchecks⟩⟩
  · rintro ⟨_, htable, rfl, hmatch⟩
    obtain ⟨row, hmem, rfl⟩ := List.mem_map.mp htable
    obtain ⟨hrsv, hopc, hchecks⟩ := (and_mask_eq_iff row w).mp hmatch
    exact ⟨_, (decode_eq_ok_iff w _).mpr ⟨hrsv, row, hmem, hopc, hchecks, rfl⟩, mnemonicOf_build _ _⟩

/-- Settles O5: the check of that field, or that of RSV, rejects the word. -/
theorem nonzeroMustBeZeroFieldIsIllegal : Obligations.NonzeroMustBeZeroFieldIsIllegal := by
  rintro w (hrsv | ⟨row, hrow, hfield⟩)
  · exact ⟨.reservedBits, if_pos hrsv⟩
  · refine decode_error_of_checkFields hrow fun hchecks => ?_
    obtain ⟨hrd, hra, hrb, himm, -⟩ := (checkFields_eq_none_iff _ _).mp hchecks
    rcases hfield with ⟨hzero, hne⟩ | ⟨hzero, hne⟩ | ⟨hzero, hne⟩ | ⟨hzero, hne⟩
    · exact hne ((checkReg_zero_eq_none_iff _).mp (hzero ▸ hrd))
    · exact hne ((checkReg_zero_eq_none_iff _).mp (hzero ▸ hra))
    · exact hne ((checkReg_zero_eq_none_iff _).mp (hzero ▸ hrb))
    · exact hne ((checkImm_zero_eq_none_iff _).mp (hzero ▸ himm))

/-- A register that passes the check of a point field is even (R53). -/
theorem even_of_checkReg_point {r : Reg} (h : checkReg .point r = none) : r.toNat % 2 ≠ 1 := by
  revert r
  decide

/-- Settles O6: the check of that point field rejects the word. -/
theorem oddPointFieldIsIllegal : Obligations.OddPointFieldIsIllegal := by
  intro w row hrow hfield
  refine decode_error_of_checkFields hrow fun hchecks => ?_
  obtain ⟨hrd, hra, hrb, -, -⟩ := (checkFields_eq_none_iff _ _).mp hchecks
  rcases hfield with ⟨hpoint, hodd⟩ | ⟨hpoint, hodd⟩ | ⟨hpoint, hodd⟩
  · exact even_of_checkReg_point (hpoint ▸ hrd) hodd
  · exact even_of_checkReg_point (hpoint ▸ hra) hodd
  · exact even_of_checkReg_point (hpoint ▸ hrb) hodd

end Sys2Proof.Safety
end

section
/-! PROOFS. The commands of an assembled line (30_encoding.md R53, R54, R61, R62): every form gives well-formed
commands. -/

namespace Sys2Proof.Machine

theorem validSelector_of_selectorOf {o : AsmOperand} {sel : BitVec 8} (h : selectorOf o = some sel) :
    validSelector sel = true := by
  cases o with
  | imm n =>
    obtain ⟨hn, hsel⟩ := Option.ite_none_right_eq_some.mp h
    cases hsel
    exact decide_eq_true ((Nat.mod_le n _).trans hn)
  | sel s =>
    obtain ⟨hs, hsel⟩ := Option.ite_none_right_eq_some.mp h
    cases hsel
    exact hs
  | f r | p r => cases h

/-- A command of operands whose point registers are even is well-formed: its selector is one that `selectorOf` lets
through, and its point fields are among the operands (R53, R54). -/
theorem wellFormed_of_command {mn : Mnemonic} {ops : List AsmOperand} {i : Instr} (hok : ops.all operandOk = true)
    (h : command mn ops = some i) : i.wellFormed = true := by
  unfold command at h
  split at h
  case h_2 => -- LDC
    obtain ⟨sel, hsel, rfl⟩ := Option.map_eq_some_iff.mp h
    exact validSelector_of_selectorOf hsel
  case h_3 | h_4 => -- GETBIT and CLRBIT
    obtain ⟨k, -, rfl⟩ := Option.map_eq_some_iff.mp h
    rfl
  case h_12 | h_13 | h_14 | h_15 | h_16 => -- the commands on points
    cases h
    simpa [Instr.wellFormed, operandOk, and_assoc] using hok
  all_goals cases h <;> rfl

/-- No expansion of R62 has a point field, and its selectors are 0, 1, 3 and 4. -/
theorem wellFormed_of_expansion {p : Pseudo} {ops : List AsmOperand} {is : List Instr} (h : expansion p ops = some is) :
    ∀ i ∈ is, i.wellFormed = true := by
  unfold expansion at h
  split at h
  case h_5 | h_7 => -- FDIV and PNEG, whose destination is not their source
    obtain ⟨-, his⟩ := Option.ite_none_right_eq_some.mp h
    cases his
    simp [Instr.wellFormed]
  all_goals cases h <;> simp [Instr.wellFormed, validSelector]

theorem wellFormed_of_assemble {name : AsmName} {ops : List AsmOperand} {is : List Instr}
    (h : assemble name ops = some is) : ∀ i ∈ is, i.wellFormed = true := by
  obtain ⟨hok, h⟩ := Option.ite_none_right_eq_some.mp h
  cases name with
  | cmd mn =>
    obtain ⟨i, hi, rfl⟩ := Option.map_eq_some_iff.mp h
    exact List.forall_mem_singleton.mpr (wellFormed_of_command hok hi)
  | pseudo p => exact wellFormed_of_expansion h

/-- All that an assembled line can be: without a command, or a name and its operands (R61). -/
theorem assembleLine_cases {line : List Char} {is : List Instr} (h : assembleLine line = some is) :
    is = [] ∨ ∃ name ops, assemble name ops = some is := by
  simp only [assembleLine] at h
  split at h
  · cases h
    exact .inl rfl
  · split at h
    · cases h
    · next name _ =>
      obtain ⟨ops, -, hops⟩ := Option.bind_eq_some_iff.mp h
      exact .inr ⟨name, ops, hops⟩

end Sys2Proof.Machine

namespace Sys2Proof.Safety

open Sys2Proof.Machine

/-- Settles O59: a line with commands is a name with its operands, and both kinds of name give well-formed commands. -/
theorem assembledCommandsAreWellFormed : Obligations.AssembledCommandsAreWellFormed := by
  intro line is h
  rcases assembleLine_cases h with rfl | ⟨name, ops, hassemble⟩
  · exact fun i hi => absurd hi List.not_mem_nil
  · exact wellFormed_of_assemble hassemble

end Sys2Proof.Safety
end

section
/-! PROOFS. Command words on the machine (30_encoding.md R53, R54, R58, R62): the end of an Illegal word, that of a term
that no word decodes to, and the two commands of FDIV. -/

namespace Sys2Proof.Safety

open Sys2Proof.Machine

/-! Illegal words (R58) -/

/-- A turn of the CORE on an Illegal word changes neither a register nor RES, and reports ILLEGAL_CMD (R29, R58). -/
theorem coreTurn_illegal {s : State} {cause : IllegalCause} (hb : s.status.busy = true)
    (hi : decode s.latchWord = .error cause) :
    ∃ t, coreTurn s = .next t ∧ t.f = s.f ∧ t.res = s.res ∧ CommandFrame s t ∧
      t.status = ⟨false, true, true, s.status.wign, some .illegalCmd⟩ :=
  ⟨_, coreTurn_of_illegal hb hi, rfl, rfl, complete_frame rfl, rfl⟩

/-- Settles O7: the write to CMD is accepted as any other, and the CORE's turn is that of `coreTurn_illegal`. -/
theorem illegalWordCommitsOnlyItsErrorCode : Obligations.IllegalWordCommitsOnlyItsErrorCode := by
  refine ⟨fun s w cause hb hi => ?accept, fun s u cause hb hi hport => ?turn⟩
  case accept =>
    have haccept : step { s with port := issue w } =
        .next (respond (.write .ok) (accept w { s with port := [.core] })) :=
      (step_bus rfl).trans (congrArg _ (transact_cmd_of_idle (s := { s with port := [.core] }) hb w))
    obtain ⟨u, hu, hf, hres, ⟨hrom, -⟩, hst⟩ :=
      coreTurn_illegal (s := respond (.write .ok) (accept w { s with port := [] })) rfl hi
    exact ⟨_, u, run_succ haccept, rfl, rfl, rfl,
      (run_succ haccept).trans (run_succ ((step_core rfl).trans hu)), hf, hres, hrom, hst⟩
  case turn =>
    rcases hport with ⟨hp, rfl⟩ | ⟨rest, hp, rfl⟩
    · rw [step_port_nil hp]
      exact coreTurn_illegal hb hi
    · rw [step_core hp]
      exact coreTurn_illegal (s := { s with port := rest }) hb hi

/-! Terms that no word decodes to (log entry 9) -/

theorem romConstant_of_invalid (c : Curve) {sel : BitVec 8} (h : validSelector sel = false) :
    romConstant c sel = .error .illegalCmd := by
  have hsel : 5 < sel.toNat := by simpa [validSelector] using h
  unfold romConstant
  split
  case h_7 => rfl
  all_goals omega

theorem any_oddReg_of_all_evenReg {rs : List Reg} (h : rs.all evenReg = false) : rs.any oddReg = true := by
  simpa [evenReg, oddReg] using h

/-- An ill-formed term ends in ILLEGAL_CMD: LDC finds no constant, and a point command stops at its odd register. -/
theorem exec_illFormed_error {i : Instr} (h : i.wellFormed = false) (s : State) :
    exec i s = complete s (.error .illegalCmd) s.work := by
  cases i with
  | ldc fd sel => rw [exec, execLdc, romConstant_of_invalid s.rom h, stageOr_error]
  | pisid | ponc | pdbl | padd | pmul =>
    exact completeOnPoints_odd (any_oddReg_of_all_evenReg (by simpa [Instr.wellFormed, and_assoc] using h)) s _ _
  | _ => cases h

/-- Settles O14: such a term raises ILLEGAL_CMD. -/
theorem illFormedTermEndsInIllegalCmd : Obligations.IllFormedTermEndsInIllegalCmd := fun _ s h =>
  fails_of_error (exec_illFormed_error h s)

/-! FDIV (R62) -/

theorem gfInv_of_ne_zero (f : Buf) {x : Elem} (hx : x ≠ 0) : gfInv f x = .ok (gfInvert f x) := if_neg hx

/-- FINV of a nonzero source stages its inverse (R84). -/
theorem exec_finv_of_ne_zero {s : State} {fa : Reg} (fd : Reg) (hx : readReg s.latchF fa ≠ 0) :
    exec (.finv fd fa) s = complete s (stageF fd (gfInvert s.rom.f (readReg s.latchF fa)))
      (workInv s.rom.f s.freeIdx (readReg s.latchF fa) s.work) := by
  rw [exec, execFinv, sourceF, gfInv_of_ne_zero s.rom.f hx, stageOr_ok]

/-- FINV issued to an idle block writes the inverse of its nonzero source, and the block is idle again (R84). -/
theorem run_issue_finv {s : State} {d b : Reg} {rest : List PortEvent} (hb : s.status.busy = false)
    (hnz : readReg s.f b ≠ 0) (hp : s.port = issue (encode (.finv d b)) ++ rest) :
    ∃ t, run 2 s = .next t ∧ t.f = writeReg s.f d (gfInvert s.rom.f (readReg s.f b)) ∧ t.res = s.res ∧
      t.rom = s.rom ∧ t.status.busy = false ∧ t.port = rest :=
  ⟨_, (run_issue hb (decodeOfEncodeIsTheCommand _ rfl) hp).trans (exec_finv_of_ne_zero d hnz), rfl, rfl, rfl, rfl, rfl⟩

/-- FMUL issued to an idle block writes the product of its sources (R83). -/
theorem run_issue_fmul {s : State} {d a b : Reg} {rest : List PortEvent} (hb : s.status.busy = false)
    (hp : s.port = issue (encode (.fmul d a b)) ++ rest) :
    ∃ t, run 2 s = .next t ∧ t.f = writeReg s.f d (gfMul s.rom.f (readReg s.f a) (readReg s.f b)) ∧ t.res = s.res :=
  ⟨_, run_issue hb (decodeOfEncodeIsTheCommand _ rfl) hp, rfl, rfl⟩

/-- Settles O60: FINV leaves the inverse of `F[b]` in `F[d]`, and FMUL multiplies it by `F[a]`, which FINV kept. -/
theorem fdivExpansionDivides : Obligations.FdivExpansionDivides := by
  intro s d a b hb hda hnz
  obtain ⟨t, ht, htf, htres, htrom, htb, htp⟩ := run_issue_finv
    (s := { s with port := issue (encode (.finv d b)) ++ issue (encode (.fmul d a d)) }) hb hnz rfl
  obtain ⟨u, hu, huf, hures⟩ := run_issue_fmul (rest := []) htb htp
  refine ⟨_, _, u, _, if_pos hda, (run_add ht).trans hu, gfInv_of_ne_zero _ hnz, fun r => ?_, hures.trans htres⟩
  have ha : readReg t.f a = readReg s.f a := by rw [htf, readReg_writeReg, if_neg hda.symm]
  have hd : readReg t.f d = gfInvert s.rom.f (readReg s.f b) := by rw [htf, readReg_writeReg_same]
  rw [huf, ha, hd, htrom, htf, readReg_writeReg, readReg_writeReg]
  split_ifs <;> rfl

end Sys2Proof.Safety
end

section
/-! PROOFS. The primitives on working buffers and the representation commands (40_representation.md R63 to R74): the
scan of R66 against `bitlen`, and the completion of FMOV, LDC, GETBIT, CLRBIT, ISZERO, EQ and DEG. -/

namespace Sys2Proof.Machine

/-! The scan of R66 -/

theorem bitlen_le (v : Buf) : bitlen v ≤ 192 := by
  rw [bitlen_eq_size, Nat.size_le]
  exact v.isLt

theorem lt_bitlen_of_getLsbD {v : Buf} {k : Nat} (h : v.getLsbD k = true) : k < bitlen v := by
  by_contra hle
  rw [getLsbD_of_bitlen_le (not_lt.mp hle)] at h
  cases h

/-- The inner scan finds the highest set bit where that bit stands in the scanned range. -/
theorem scanBits_eq_bitlen {v : Buf} {base n : Nat} (hlow : base < bitlen v) (hhigh : bitlen v ≤ base + n) :
    scanBits v base n = bitlen v := by
  induction n with
  | zero => omega
  | succ n ih =>
    rw [scanBits]
    split_ifs with hbit
    · have := lt_bitlen_of_getLsbD hbit
      omega
    · have hne : bitlen v ≠ base + n + 1 := fun e => hbit (getLsbD_of_bitlen_eq_succ e)
      exact ih (by omega)

/-- Where no bit stands above a word, that word is nonzero exactly when the highest set bit stands in it. -/
theorem extractLsb'_ne_zero_iff_lt_bitlen {v : Buf} {base : Nat} (hhigh : bitlen v ≤ base + 32) :
    v.extractLsb' base 32 ≠ 0 ↔ base < bitlen v := by
  constructor
  · intro hne
    by_contra hle
    refine hne (BitVec.eq_of_getLsbD_eq fun j hj => ?_)
    rw [BitVec.getLsbD_extractLsb', getLsbD_of_bitlen_le (by omega)]
    simp
  · intro hlow hzero
    have hbit : v.getLsbD (base + (bitlen v - 1 - base)) = true := getLsbD_of_bitlen_eq_succ (by omega)
    have hword : (v.extractLsb' base 32).getLsbD (bitlen v - 1 - base) = false := hzero ▸ BitVec.getLsbD_zero
    rw [BitVec.getLsbD_extractLsb', hbit, Bool.and_true, decide_eq_false_iff_not] at hword
    omega

/-- The outer scan stops at the word of the highest set bit. -/
theorem scanWords_eq_bitlen {v : Buf} {k : Nat} (h : bitlen v ≤ 32 * k) : scanWords v k = bitlen v := by
  induction k with
  | zero => rw [scanWords]; omega
  | succ k ih =>
    rw [scanWords]
    split_ifs with hword
    · exact scanBits_eq_bitlen ((extractLsb'_ne_zero_iff_lt_bitlen h).mp hword) h
    · exact ih (not_lt.mp fun hlow => hword ((extractLsb'_ne_zero_iff_lt_bitlen h).mpr hlow))

theorem bitlenScan_eq_bitlen (v : Buf) : bitlenScan v = bitlen v := scanWords_eq_bitlen (bitlen_le v)

/-! A field element in a working buffer (R10) -/

@[simp] theorem toNat_toBuf (x : Elem) : (toBuf x).toNat = x.toNat := BitVec.toNat_setWidth_of_le (by decide)

theorem toBuf_inj {x y : Elem} : toBuf x = toBuf y ↔ x = y := by
  rw [BitVec.toNat_eq, toNat_toBuf, toNat_toBuf, BitVec.toNat_eq]

theorem toBuf_eq_zero_iff {x : Elem} : toBuf x = 0 ↔ x = 0 := toBuf_inj (y := 0)

@[simp] theorem getLsbD_toBuf (x : Elem) (j : Nat) : (toBuf x).getLsbD j = x.getLsbD j := by
  rw [BitVec.getLsbD, BitVec.getLsbD, toNat_toBuf]

/-! The bit operations and the comparisons (R63 to R65) -/

theorem getBit_of_lt (v : Buf) {i : Nat} (hi : i < 192) : getBit v i = .ok (v.getLsbD i) := if_pos hi

theorem getBit_of_not_lt (v : Buf) {i : Nat} (hi : ¬ i < 192) : getBit v i = .error .bitIndex := if_neg hi

theorem clearBit_of_lt (v : Buf) {i : Nat} (hi : i < 192) : clearBit v i = .ok (v &&& ~~~(1#192 <<< i)) := if_pos hi

theorem clearBit_of_not_lt (v : Buf) {i : Nat} (hi : ¬ i < 192) : clearBit v i = .error .bitIndex := if_neg hi

/-- The bits of a field element whose bit `i` is cleared in a working buffer (R64). -/
theorem getLsbD_toElem_clear (x : Elem) (i : Nat) {j : Nat} (hj : j < 163) :
    (toElem (toBuf x &&& ~~~(1#192 <<< i))).getLsbD j = (decide (j ≠ i) && x.getLsbD j) := by
  have hone : (1#192 <<< i).getLsbD j = decide (j = i) := by
    rw [← BitVec.twoPow_eq, BitVec.getLsbD_twoPow, ← Bool.decide_and]
    exact decide_eq_decide.mpr (by omega)
  rw [toElem, BitVec.getLsbD_setWidth, BitVec.getLsbD_and, BitVec.getLsbD_not, getLsbD_toBuf, hone, decide_eq_true hj,
    decide_eq_true (show j < 192 by omega), Bool.true_and, Bool.true_and, Bool.and_comm, decide_not]

theorem truthWord_eq_ite {b : Bool} {p : Prop} [Decidable p] (h : b = true ↔ p) : truthWord b = if p then 1 else 0 :=
  if_congr h rfl rfl

theorem truthWord_isZero_toBuf (x : Elem) : truthWord (isZero (toBuf x)) = if x = 0 then 1 else 0 :=
  truthWord_eq_ite (beq_iff_eq.trans toBuf_eq_zero_iff)

theorem truthWord_equal_toBuf (x y : Elem) : truthWord (equal (toBuf x) (toBuf y)) = if x = y then 1 else 0 :=
  truthWord_eq_ite (beq_iff_eq.trans toBuf_inj)

theorem bitlen_toBuf (x : Elem) : bitlen (toBuf x) = x.toNat.size := by
  rw [bitlen_eq_size, toNat_toBuf]

end Sys2Proof.Machine

namespace Sys2Proof.Safety

open Sys2Proof.Machine

/-- Settles O43: the scan stops at the highest set bit, whose index plus one `bitlen` is. -/
theorem bitlenScanGivesTheHighestSetBit : Obligations.BitlenScanGivesTheHighestSetBit := by
  refine ⟨fun v => ⟨bitlenScan_eq_bitlen v, bitlen_le v, fun _ => getLsbD_of_bitlen_le, fun hv => ?nonzero,
    fun hv => if_pos hv⟩, bitlen_toBuf_le⟩
  case nonzero =>
    have hpos : 0 < bitlen v := by
      rw [bitlen, if_neg hv]
      omega
    exact ⟨getLsbD_of_bitlen_eq_succ (Nat.sub_add_cancel hpos).symm, hpos⟩

/-- A word that the encoder writes for a well-formed command decodes to that command (R57). -/
theorem decode_of_eq_encode {w : Word} {i : Instr} (hw : w = encode i) (hi : i.wellFormed = true) : decode w = .ok i :=
  hw ▸ decodeOfEncodeIsTheCommand i hi

/-- Settles O4: each word is the encoding of the command that the spec gives with it. -/
theorem wordsOfTheSpecDecode : Obligations.WordsOfTheSpecDecode :=
  ⟨decode_of_eq_encode rfl rfl, decode_of_eq_encode rfl rfl, decode_of_eq_encode rfl rfl, decode_of_eq_encode rfl rfl,
    decode_of_eq_encode rfl rfl, decode_of_eq_encode rfl rfl, decode_of_eq_encode rfl rfl⟩

/-! The representation commands (R68 to R74) -/

/-- Settles O38: the latched source is what FMOV stages. -/
theorem fmovCopiesARegister : Obligations.FmovCopiesARegister := fun _ _ _ => completes_of_stageF rfl

/-- LDC with a selector that names a constant completes with that constant (R69). -/
theorem completes_ldc {s : State} {sel : BitVec 8} {v : Elem} (fd : Reg) (hv : romConstant s.rom sel = .ok v) :
    Completes (.ldc fd sel) s (withReg s fd v) s.res :=
  completes_of_stageF (by rw [exec, execLdc, hv, stageOr_ok])

/-- Settles O39: each selector names its constant. -/
theorem ldcLoadsTheSelectedConstant : Obligations.LdcLoadsTheSelectedConstant := fun _ fd =>
  ⟨completes_ldc fd rfl, completes_ldc fd rfl, completes_ldc fd rfl, completes_ldc fd rfl, completes_ldc fd rfl,
    completes_ldc fd rfl⟩

/-- Settles O40: below 192 the bit of the buffer is that of the source, and an index above is an error. -/
theorem getbitReadsTheBitOrFails : Obligations.GetbitReadsTheBitOrFails := by
  intro s fa i
  by_cases hi : i.toNat < 192
  · rw [if_pos hi]
    refine completes_of_stageRes (b := s.work) ?_
    rw [exec, execGetbit, getBit_of_lt _ hi, stageOr_ok, getLsbD_toBuf]
    rfl
  · rw [if_neg hi]
    refine fails_of_error (b := s.work) ?_
    rw [exec, execGetbit, getBit_of_not_lt _ hi, stageOr_error]

/-- Settles O41: below 192 the buffer's mask clears bit `i` and no other, and an index above is an error. -/
theorem clrbitClearsTheBitOrFails : Obligations.ClrbitClearsTheBitOrFails := by
  intro s fd i
  split_ifs with hi
  · refine ⟨_, fun j hj => getLsbD_toElem_clear (latchedF s fd) i.toNat hj, completes_of_stageF (b := s.work) ?_⟩
    rw [exec, execClrbit, clearBit_of_lt _ hi, stageOr_ok]
    rfl
  · refine fails_of_error (b := s.work) ?_
    rw [exec, execClrbit, clearBit_of_not_lt _ hi, stageOr_error]

/-- Settles O42: each answer on the buffers is the answer on the registers' contents. -/
theorem iszeroEqDegAnswerInRes : Obligations.IszeroEqDegAnswerInRes := by
  intro s fa fb
  rw [← truthWord_isZero_toBuf, ← truthWord_equal_toBuf, ← bitlen_toBuf]
  exact ⟨completes_of_stageRes rfl, completes_of_stageRes rfl, completes_of_stageRes rfl⟩

end Sys2Proof.Safety
end

section
/-! PROOFS. The field commands and the product of the field (41_field.md R76, R77, R81 to R84): what FADD, FINC, FMUL
and FINV end with, `gf_mul` as the product modulo `f`, and the values of the multiply loop as canonical. -/

namespace Sys2Proof.Safety

open Polynomial Sys2Proof.Machine

/-! The commands (R81 to R84) -/

/-- Settles O44: the latched sources' exclusive or is what each of the two stages. -/
theorem faddFincWriteTheSum : Obligations.FaddFincWriteTheSum := fun _ _ _ _ =>
  ⟨completes_of_stageF rfl, completes_of_stageF rfl⟩

/-- Settles O45: the product of the latched sources is what FMUL stages. -/
theorem fmulCompletesWithGfMul : Obligations.FmulCompletesWithGfMul := fun _ _ _ _ => completes_of_stageF rfl

/-- FINV of zero stages the error of `gf_inv` (R84). -/
theorem exec_finv_of_eq_zero {s : State} {fa : Reg} (fd : Reg) (hx : readReg s.latchF fa = 0) :
    exec (.finv fd fa) s = complete s (.error .zeroInverse)
      (workInv s.rom.f s.freeIdx (readReg s.latchF fa) s.work) := by
  rw [exec, execFinv, sourceF, gfInv, if_pos hx, stageOr_error]

/-- Settles O46: `gf_inv` splits on its operand, and FINV stages its value or its error. -/
theorem finvCompletesOrFailsOnZero : Obligations.FinvCompletesOrFailsOnZero := by
  intro s fd fa
  split_ifs with hx
  · exact fails_of_error (exec_finv_of_eq_zero fd hx)
  · exact ⟨_, gfInv_of_ne_zero s.rom.f hx, completes_of_stageF (exec_finv_of_ne_zero fd hx)⟩

/-! The product of the field (R76, R77) -/

/-- A value fits in `m` bits exactly when its polynomial is of degree below `m` (R9). -/
theorem toNat_lt_two_pow_iff {n m : Nat} {v : BitVec n} : v.toNat < 2 ^ m ↔ (polyOf v).degree < m := by
  rw [degree_polyOf_lt_iff]
  exact ⟨fun h k hk => Nat.testBit_lt_two_pow (h.trans_le (Nat.pow_le_pow_right two_pos hk)),
    fun h => Nat.lt_pow_two_of_testBit _ h⟩

/-- Settles O47: this is the loop's invariant after its last iteration. -/
theorem gfMulIsTheProductModuloF : Obligations.GfMulIsTheProductModuloF := fun _ x y hf => polyOf_gfMul hf x y

/-- Settles O48: `polyOf_mulLoop` has both values as remainders modulo `f`, whose degree is below 163. -/
theorem multiplyLoopStaysCanonical : Obligations.MultiplyLoopStaysCanonical := by
  intro f x y n hf
  obtain ⟨ht, hacc⟩ := polyOf_mulLoop hf x y n
  exact ⟨toNat_lt_two_pow_iff.mpr (ht ▸ degree_mod_modulus_lt hf _),
    toNat_lt_two_pow_iff.mpr (hacc ▸ degree_mod_modulus_lt hf _)⟩

end Sys2Proof.Safety
end

section
/-! PROOFS. The inversion loop (41_field.md R78, R79): what an iteration does to the `bitlen` of each value, the
invariant of R79 and the end of the loop with the inverse. -/

namespace Sys2Proof.Machine

/-! The `bitlen` of sums and shifts (R66, R67) -/

theorem bitlen_le_iff {v : Buf} {n : Nat} : bitlen v ≤ n ↔ ∀ k, n ≤ k → v.getLsbD k = false := by
  refine ⟨fun h k hk => getLsbD_of_bitlen_le (h.trans hk), fun h => ?_⟩
  by_contra hlt
  have htop : v.getLsbD (bitlen v - 1) = true := getLsbD_of_bitlen_eq_succ (by omega)
  rw [h _ (by omega)] at htop
  cases htop

theorem bitlen_xor_le (v w : Buf) : bitlen (v ^^^ w) ≤ max (bitlen v) (bitlen w) := by
  refine bitlen_le_iff.mpr fun k hk => ?_
  rw [BitVec.getLsbD_xor, getLsbD_of_bitlen_le (le_of_max_le_left hk), getLsbD_of_bitlen_le (le_of_max_le_right hk),
    Bool.xor_self]

theorem getLsbD_shl_add (v : Buf) (s k : Nat) (h : k + s < 192) : (shl v s).getLsbD (k + s) = v.getLsbD k := by
  rw [shl, BitVec.getLsbD_shiftLeft, decide_eq_true h, decide_eq_false (by omega), Nat.add_sub_cancel]
  rfl

theorem bitlen_shl_le (v : Buf) (s : Nat) : bitlen (shl v s) ≤ bitlen v + s := by
  refine bitlen_le_iff.mpr fun k hk => ?_
  rw [shl, BitVec.getLsbD_shiftLeft, getLsbD_of_bitlen_le (by omega), Bool.and_false]

/-- The paired exclusive or clears the top bit of `u` (R79). -/
theorem bitlen_xor_shl_lt {u v : Buf} (hv : 0 < bitlen v) (hle : bitlen v ≤ bitlen u) :
    bitlen (u ^^^ shl v (bitlen u - bitlen v)) < bitlen u := by
  have hshl := bitlen_shl_le v (bitlen u - bitlen v)
  have hfits := bitlen_le u
  suffices h : bitlen (u ^^^ shl v (bitlen u - bitlen v)) ≤ bitlen u - 1 by omega
  refine bitlen_le_iff.mpr fun k hk => ?_
  rw [BitVec.getLsbD_xor]
  obtain rfl | hk := hk.eq_or_lt
  · have htop : (shl v (bitlen u - bitlen v)).getLsbD (bitlen v - 1 + (bitlen u - bitlen v)) = true := by
      rw [getLsbD_shl_add _ _ _ (by omega)]
      exact getLsbD_of_bitlen_eq_succ (by omega)
    rw [show bitlen u - 1 = bitlen v - 1 + (bitlen u - bitlen v) by omega, htop,
      getLsbD_of_bitlen_eq_succ (by omega), Bool.xor_self]
  · rw [getLsbD_of_bitlen_le (by omega), getLsbD_of_bitlen_le (by omega), Bool.xor_self]

theorem bitlen_one : bitlen 1 = 1 := rfl

theorem two_le_bitlen {v : Buf} (h0 : v ≠ 0) (h1 : v ≠ 1) : 2 ≤ bitlen v := by
  by_contra hlt
  have hsmall : v.toNat < 2 ^ 1 := Nat.size_le.mp (bitlen_eq_size v ▸ by omega)
  have hcases : v.toNat = 0 ∨ v.toNat = 1 := by omega
  exact hcases.elim (fun h => h0 (BitVec.eq_of_toNat_eq h)) fun h => h1 (BitVec.eq_of_toNat_eq h)

/-! One iteration of the loop (R78) -/

/-- The paired shift and exclusive or, where `u` is no shorter than `v` (R78). -/
def invReduce (b : InvBuf) : InvBuf :=
  { b with
    u := b.u ^^^ shl b.v (bitlen b.u - bitlen b.v)
    g := b.g ^^^ shl b.z (bitlen b.u - bitlen b.v)
    shift := some (bitlen b.u - bitlen b.v) }

section Fields

variable (b : InvBuf)

@[simp] theorem invSwap_u : (invSwap b).u = b.v := rfl
@[simp] theorem invSwap_g : (invSwap b).g = b.z := rfl
@[simp] theorem invSwap_v : (invSwap b).v = b.u := rfl
@[simp] theorem invSwap_z : (invSwap b).z = b.g := rfl
@[simp] theorem invReduce_u : (invReduce b).u = b.u ^^^ shl b.v (bitlen b.u - bitlen b.v) := rfl
@[simp] theorem invReduce_g : (invReduce b).g = b.g ^^^ shl b.z (bitlen b.u - bitlen b.v) := rfl
@[simp] theorem invReduce_v : (invReduce b).v = b.v := rfl
@[simp] theorem invReduce_z : (invReduce b).z = b.z := rfl

end Fields

theorem invStep_of_le {b : InvBuf} (h : bitlen b.v ≤ bitlen b.u) : invStep b = invReduce b := by
  have hneg : ¬ (bitlen b.u : Int) - bitlen b.v < 0 := by omega
  have habs : ((bitlen b.u : Int) - bitlen b.v).natAbs = bitlen b.u - bitlen b.v := by omega
  simp only [invStep, if_neg hneg, habs]
  rfl

theorem invStep_of_lt {b : InvBuf} (h : bitlen b.u < bitlen b.v) : invStep b = invReduce (invSwap b) := by
  have hneg : (bitlen b.u : Int) - bitlen b.v < 0 := by omega
  have habs : ((bitlen b.u : Int) - bitlen b.v).natAbs = bitlen b.v - bitlen b.u := by omega
  simp only [invStep, if_pos hneg, habs]
  rfl

end Sys2Proof.Machine

namespace Sys2Proof.Safety

open Polynomial Sys2Proof.Machine

theorem polyOf_shl_of_bitlen {v : Buf} {s : Nat} (h : bitlen v + s ≤ 192) : polyOf (shl v s) = polyOf v * X ^ s :=
  polyOf_shl v s fun _ hk => getLsbD_of_bitlen_le (by omega)

theorem not_isUnit_polyOf {v : Buf} (h : 2 ≤ bitlen v) : ¬ IsUnit (polyOf v) := fun hunit => by
  have htop : (polyOf v).coeff (bitlen v - 1) = 0 :=
    coeff_eq_zero_of_natDegree_lt (by rw [natDegree_eq_zero_of_isUnit hunit]; omega)
  rw [coeff_polyOf, getLsbD_of_bitlen_eq_succ (by omega)] at htop
  cases htop

/-- What holds of the two pairs at the top of every iteration: the congruences of R79.1 (in characteristic 2 a
difference is a sum), the coprimality of R79.2, R79.3 and the bounds of R79.5. -/
structure GcdInvariant (f : Buf) (x : Elem) (b : InvBuf) : Prop where
  dvd_u : polyOf f ∣ polyOf b.g * polyOf x + polyOf b.u
  dvd_v : polyOf f ∣ polyOf b.z * polyOf x + polyOf b.v
  coprime : IsCoprime (polyOf b.u) (polyOf b.v)
  two_le_v : 2 ≤ bitlen b.v
  bound_g : bitlen b.g + bitlen b.v ≤ 165
  bound_z : bitlen b.z + bitlen b.u ≤ 165

namespace GcdInvariant

variable {f : Buf} {x : Elem} {b : InvBuf}

theorem start (hf : bitlen f = 164) (hx : IsCoprime (polyOf x) (polyOf f)) : GcdInvariant f x (invStart f x) where
  dvd_u := by
    have hone : polyOf (1 : Buf) = 1 := (polyOf_toBuf 1).trans polyOf_one
    rw [invStart, hone, polyOf_toBuf, one_mul, CharTwo.add_self_eq_zero]
    exact dvd_zero _
  dvd_v := by
    rw [invStart, polyOf_zero, zero_mul, zero_add]
  coprime := by rwa [invStart, polyOf_toBuf]
  two_le_v := by rw [invStart, hf]; decide
  bound_g := by rw [invStart, hf, bitlen_one]
  bound_z := by
    rw [invStart, show bitlen 0 = 0 from rfl, zero_add]
    exact (bitlen_toBuf_le x).trans (by decide)

/-- R79.4: `u` is never 0, since `v` is coprime to it and no unit. -/
theorem u_ne_zero (h : GcdInvariant f x b) : b.u ≠ 0 := fun hu => by
  have hcop := h.coprime
  rw [hu, polyOf_zero, isCoprime_zero_left] at hcop
  exact not_isUnit_polyOf h.two_le_v hcop

theorem swap (h : GcdInvariant f x b) (hu : b.u ≠ 1) : GcdInvariant f x (invSwap b) where
  dvd_u := by rw [invSwap_u, invSwap_g]; exact h.dvd_v
  dvd_v := by rw [invSwap_v, invSwap_z]; exact h.dvd_u
  coprime := h.coprime.symm
  two_le_v := two_le_bitlen h.u_ne_zero hu
  bound_g := by rw [invSwap_g, invSwap_v]; exact h.bound_z
  bound_z := by rw [invSwap_z, invSwap_u]; exact h.bound_g

/-- The paired exclusive or adds `X^i` times the pair `(v, z)` to the pair `(u, g)`: no shift loses a bit (R79). -/
theorem polyOf_invReduce (h : GcdInvariant f x b) (hle : bitlen b.v ≤ bitlen b.u) :
    polyOf (invReduce b).u = polyOf b.u + polyOf b.v * X ^ (bitlen b.u - bitlen b.v) ∧
      polyOf (invReduce b).g = polyOf b.g + polyOf b.z * X ^ (bitlen b.u - bitlen b.v) := by
  have hz := h.bound_z
  have hu := bitlen_le b.u
  rw [invReduce_u, invReduce_g, polyOf_xor, polyOf_xor, polyOf_shl_of_bitlen (by omega),
    polyOf_shl_of_bitlen (by omega)]
  exact ⟨rfl, rfl⟩

theorem bitlen_invReduce_lt (h : GcdInvariant f x b) (hle : bitlen b.v ≤ bitlen b.u) :
    bitlen (invReduce b).u < bitlen b.u :=
  bitlen_xor_shl_lt (two_pos.trans_le h.two_le_v) hle

theorem reduce (h : GcdInvariant f x b) (hle : bitlen b.v ≤ bitlen b.u) : GcdInvariant f x (invReduce b) where
  dvd_u := by
    obtain ⟨hu, hg⟩ := h.polyOf_invReduce hle
    rw [hu, hg]
    convert h.dvd_u.add (h.dvd_v.mul_right (X ^ (bitlen b.u - bitlen b.v))) using 1
    ring
  dvd_v := by rw [invReduce_v, invReduce_z]; exact h.dvd_v
  coprime := by
    rw [invReduce_v, (h.polyOf_invReduce hle).1]
    exact h.coprime.add_mul_left_left _
  two_le_v := h.two_le_v
  bound_g := by
    have hxor := bitlen_xor_le b.g (shl b.z (bitlen b.u - bitlen b.v))
    have hshl := bitlen_shl_le b.z (bitlen b.u - bitlen b.v)
    have hg := h.bound_g
    have hz := h.bound_z
    rw [invReduce_g, invReduce_v]
    omega
  bound_z := (Nat.add_le_add_left (h.bitlen_invReduce_lt hle).le _).trans h.bound_z

/-- An iteration keeps the invariant and shortens the two values (R79). -/
theorem step (h : GcdInvariant f x b) (hu : b.u ≠ 1) :
    GcdInvariant f x (invStep b) ∧
      bitlen (invStep b).u + bitlen (invStep b).v < bitlen b.u + bitlen b.v := by
  rcases le_or_gt (bitlen b.v) (bitlen b.u) with hle | hlt
  · rw [invStep_of_le hle]
    exact ⟨h.reduce hle, Nat.add_lt_add_right (h.bitlen_invReduce_lt hle) _⟩
  · rw [invStep_of_lt hlt]
    have hs := h.swap hu
    have hle : bitlen (invSwap b).v ≤ bitlen (invSwap b).u := hlt.le
    refine ⟨hs.reduce hle, ?_⟩
    rw [Nat.add_comm (bitlen b.u)]
    exact Nat.add_lt_add_right (hs.bitlen_invReduce_lt hle) _

/-- The loop ends with `u = 1` after at most `bitlen u + bitlen v - 3` iterations (R79). -/
theorem loop {n : Nat} (h : GcdInvariant f x b) (hn : bitlen b.u + bitlen b.v ≤ n + 3) :
    GcdInvariant f x (invLoop n b) ∧ (invLoop n b).u = 1 := by
  induction n generalizing b with
  | zero =>
    refine ⟨h, by_contra fun hu => ?_⟩
    have hu2 := two_le_bitlen h.u_ne_zero hu
    have hv2 := h.two_le_v
    omega
  | succ n ih =>
    rw [invLoop]
    split_ifs with hu
    · exact ⟨h, hu⟩
    · obtain ⟨hstep, hlt⟩ := h.step hu
      exact ih hstep (by omega)

theorem g_canonical (h : GcdInvariant f x b) : b.g.toNat < 2 ^ 163 := by
  have hv := h.two_le_v
  have hg := h.bound_g
  rw [← Nat.size_le, ← bitlen_eq_size]
  omega

/-- Where `u = 1`, `g` is the inverse of `x` (R79.1). -/
theorem gfMul_toElem_g (h : GcdInvariant f x b) (hf : bitlen f = 164) (hu : b.u = 1) :
    gfMul f x (toElem b.g) = 1 := by
  have hg : polyOf (toElem b.g) = polyOf b.g := polyOf_toElem (toNat_lt_two_pow_iff.mp h.g_canonical)
  have hu1 : polyOf b.u = polyOf (1 : Elem) := by rw [hu]; exact polyOf_toBuf 1
  have hmod := (modByMonic_eq_zero_iff_dvd (monic_modulus hf)).mpr h.dvd_u
  rw [add_modByMonic, hu1, mod_modulus_of_degree_lt hf (degree_polyOf_lt 1), CharTwo.add_eq_zero] at hmod
  apply polyOf_injective
  rw [polyOf_gfMul hf, hg, mul_comm, hmod]

end GcdInvariant

/-- Settles O50: the invariant holds at the start, where `bitlen u + bitlen v` is at most 327, and the end of the loop
has it with `u = 1`. -/
theorem inversionLoopGivesTheInverse : Obligations.InversionLoopGivesTheInverse := by
  intro f x hf hx
  have hstart := GcdInvariant.start hf hx
  have hshort : bitlen (invStart f x).u + bitlen (invStart f x).v ≤ 324 + 3 := by
    rw [invStart, hf]
    exact Nat.add_le_add_right (bitlen_toBuf_le x) 164
  obtain ⟨hend, hu⟩ := hstart.loop hshort
  have hx0 : x ≠ 0 := fun h0 => hstart.u_ne_zero (toBuf_eq_zero_iff.mpr h0)
  refine ⟨hu, hend.g_canonical, _, gfInv_of_ne_zero f hx0, ?_⟩
  rw [gfInvert, if_pos hu]
  exact hend.gfMul_toElem_g hf hu

end Sys2Proof.Safety
end

section
/-! PROOFS. The default reduction polynomial (00_scope.md R8, log entry 1): it has no irreducible factor of a degree
below 163, so that every nonzero element is coprime to it and has its inverse (41_field.md R79, R84). -/

namespace Sys2Proof.Machine

/-- The square of an element in the field. -/
def gfSquare (f : Buf) (x : Elem) : Elem := gfMul f x x

/-- The element `x` is fixed by 163 squarings modulo the default `f`: the evaluation in Rabin's test of
irreducibility. -/
theorem gfSquare_iterate_two : (gfSquare Config.k163.f)^[163] 2 = 2 := by decide +kernel

end Sys2Proof.Machine

namespace Sys2Proof.Safety

open Polynomial Sys2Proof.Machine

/-- The value 2 is the polynomial `X`. -/
theorem polyOf_two : polyOf (2 : Elem) = X := by
  have h : (2 : Elem) = BitVec.twoPow 163 1 := rfl
  ext k
  rw [coeff_polyOf, coeff_X, h, BitVec.getLsbD_twoPow]
  exact if_congr (by simp) rfl rfl

/-- Iterated squaring is a power modulo `f`. -/
theorem polyOf_gfSquare_iterate {f : Buf} (hf : bitlen f = 164) (x : Elem) (n : Nat) :
    polyOf ((gfSquare f)^[n] x) = (polyOf x ^ 2 ^ n) %ₘ polyOf f := by
  induction n with
  | zero => simp [mod_modulus_of_degree_lt hf (degree_polyOf_lt x)]
  | succ n ih =>
    rw [Function.iterate_succ_apply', gfSquare, polyOf_gfMul hf, ih, mod_modulus_mul_mod hf, mul_comm,
      mod_modulus_mul_mod hf, ← pow_add, ← two_mul, ← pow_succ']

theorem bitlen_k163 : bitlen Config.k163.f = 164 := by decide +kernel

/-- Where `n` squarings fix the element `x`, the modulus divides `X^(2^n) - X`. -/
theorem modulus_dvd_of_gfSquare_iterate {f : Buf} (hf : bitlen f = 164) {n : Nat} (h : (gfSquare f)^[n] 2 = 2) :
    polyOf f ∣ X ^ Nat.card (ZMod 2) ^ n - X := by
  have hiter := polyOf_gfSquare_iterate hf 2 n
  rw [h, polyOf_two] at hiter
  have hX : (X : (ZMod 2)[X]) %ₘ polyOf f = X :=
    mod_modulus_of_degree_lt hf (polyOf_two ▸ degree_polyOf_lt (2 : Elem))
  rw [Nat.card_zmod, ← modByMonic_eq_zero_iff_dvd (monic_modulus hf), sub_modByMonic, ← hiter, hX, sub_self]

theorem eval_polyOf {n : Nat} (v : BitVec n) (a : ZMod 2) :
    (polyOf v).eval a = ∑ i ∈ Finset.range n, if v.getLsbD i then a ^ i else 0 := by
  rw [polyOf, eval_finsetSum]
  refine Finset.sum_congr rfl fun i _ => ?_
  split_ifs <;> simp

/-- The default `f` has no root, and so no factor of degree 1. -/
theorem eval_k163_ne_zero (a : ZMod 2) : (polyOf Config.k163.f).eval a ≠ 0 := by
  rw [eval_polyOf]
  revert a
  decide +kernel

/-- An irreducible factor of the default `f` has degree 163: its degree divides the prime 163, and is not 1. -/
theorem natDegree_of_irreducible_dvd_k163 {p : (ZMod 2)[X]} (hp : Irreducible p) (hdvd : p ∣ polyOf Config.k163.f) :
    p.natDegree = 163 := by
  have hdeg : p.natDegree ∣ 163 := hp.natDegree_dvd_of_dvd_X_pow_card_pow_sub_X
    (hdvd.trans (modulus_dvd_of_gfSquare_iterate bitlen_k163 gfSquare_iterate_two))
  refine ((Nat.dvd_prime (by norm_num)).mp hdeg).resolve_left fun hone => ?_
  obtain ⟨a, ha⟩ := exists_root_of_degree_eq_one ((degree_eq_iff_natDegree_eq_of_pos one_pos).mpr hone)
  exact eval_k163_ne_zero a (ha.dvd hdvd)

/-- Every nonzero element is coprime to the default `f`, since a common factor would have degree 163. -/
theorem isCoprime_k163 {x : Elem} (hx : x ≠ 0) : IsCoprime (polyOf x) (polyOf Config.k163.f) := by
  have hx0 : polyOf x ≠ 0 := fun h => hx (polyOf_injective (h.trans (polyOf_zero 163).symm))
  refine isCoprime_of_irreducible_dvd (fun h => hx0 h.1) fun p hp hpx hpf => ?_
  have hle := degree_le_of_dvd hpx hx0
  rw [degree_eq_natDegree hp.ne_zero, natDegree_of_irreducible_dvd_k163 hp hpf] at hle
  exact absurd (degree_polyOf_lt x) (not_lt.mpr hle)

/-- Settles O51: the inversion loop inverts what is coprime to `f`. -/
theorem everyNonzeroElementIsInverted : Obligations.EveryNonzeroElementIsInverted := fun x hx =>
  (inversionLoopGivesTheInverse Config.k163.f x bitlen_k163 (isCoprime_k163 hx)).2.2

end Sys2Proof.Safety
end

section
/-! PROOFS. The point functions and PISID and PONC (42_point.md R85 to R88, R91, R92): the equation of each branch of
`pt_double` and `pt_add`, and what the test of R86 answers. -/

namespace Sys2Proof.Machine

/-! The curve test (R85, R86) -/

theorem isIdentity_iff (p : Point) : isIdentity p = true ↔ p.x = 0 ∧ p.y = 0 := by simp [isIdentity]

theorem onCurve_iff (c : Curve) (p : Point) : onCurve c p = true ↔ (p.x = 0 ∧ p.y = 0) ∨
    gfMul c.f p.y p.y ^^^ gfMul c.f p.x p.y =
      gfMul c.f (gfMul c.f p.x p.x) p.x ^^^ gfMul c.f p.x p.x ^^^ c.b := by
  unfold onCurve
  split_ifs with hp
  · exact iff_of_true rfl (.inl hp)
  · rw [or_iff_right hp, beq_iff_eq, BitVec.xor_assoc, BitVec.xor_comm _ c.b, ← BitVec.xor_assoc]
    rfl

@[simp] theorem onCurve_identity (c : Curve) : onCurve c identity = true := (onCurve_iff c _).mpr (.inl ⟨rfl, rfl⟩)

/-! The double (R87) -/

theorem ptDouble_of_x_eq_zero (c : Curve) {p : Point} (hx : p.x = 0) : ptDouble c p = identity := if_pos hx

theorem ptDouble_of_x_ne_zero (c : Curve) {p : Point} (hx : p.x ≠ 0) :
    ptDouble c p = ⟨doubleX c (doubleLam c p),
      gfAdd (gfMul c.f p.x p.x) (gfMul c.f (gfInc (doubleLam c p)) (doubleX c (doubleLam c p)))⟩ := if_neg hx

/-! The sum, one equation for each test of R88 in its order -/

section Sum

variable (c : Curve) {p q : Point}

theorem ptAdd_identity (p : Point) : ptAdd c p identity = p := if_pos ⟨rfl, rfl⟩

theorem ptAdd_of_ne_identity (hq : q ≠ identity) :
    ptAdd c p q = if p.x = 0 ∧ p.y = 0 then q
      else if p.x = q.x then (if p.y = q.y then ptDouble c p else identity)
      else ptAddGeneral c p q := if_neg ((Safety.point_eq_zero_iff q).not.mp hq)

theorem identity_ptAdd (q : Point) : ptAdd c identity q = q := by
  by_cases hq : q = identity
  · rw [hq, ptAdd_identity]
  · rw [ptAdd_of_ne_identity c hq]
    exact if_pos ⟨rfl, rfl⟩

theorem ptAdd_of_both_ne_identity (hp : p ≠ identity) (hq : q ≠ identity) :
    ptAdd c p q = if p.x = q.x then (if p.y = q.y then ptDouble c p else identity)
      else ptAddGeneral c p q := by
  rw [ptAdd_of_ne_identity c hq, if_neg ((Safety.point_eq_zero_iff p).not.mp hp)]

theorem ptAdd_self (hp : p ≠ identity) : ptAdd c p p = ptDouble c p := by
  rw [ptAdd_of_both_ne_identity c hp hp, if_pos rfl, if_pos rfl]

theorem ptAdd_of_x_eq (hp : p ≠ identity) (hq : q ≠ identity) (hx : p.x = q.x) (hy : p.y ≠ q.y) :
    ptAdd c p q = identity := by
  rw [ptAdd_of_both_ne_identity c hp hq, if_pos hx, if_neg hy]

theorem ptAdd_of_x_ne (hp : p ≠ identity) (hq : q ≠ identity) (hx : p.x ≠ q.x) :
    ptAdd c p q = ptAddGeneral c p q := by
  rw [ptAdd_of_both_ne_identity c hp hq, if_neg hx]

end Sum

theorem ne_identity_of_x_ne_zero {p : Point} (hx : p.x ≠ 0) : p ≠ identity := fun h => hx (congrArg Point.x h)

/-- Adding the inverse `(x, x + y)` of a point whose `x` is not 0 (R88). -/
theorem ptAdd_inverse (c : Curve) {p : Point} (hx : p.x ≠ 0) : ptAdd c p ⟨p.x, p.x ^^^ p.y⟩ = identity :=
  have hy : p.y ≠ p.x ^^^ p.y := fun h => hx ((BitVec.xor_left_inj p.y).mp (h.symm.trans BitVec.zero_xor.symm))
  ptAdd_of_x_eq c (ne_identity_of_x_ne_zero hx) (ne_identity_of_x_ne_zero hx) rfl hy

end Sys2Proof.Machine

namespace Sys2Proof.Safety

open Sys2Proof.Machine

/-- Settles O55: the equation of each branch, where the inverse of R87 and R88 is the answer of `gf_inv`. -/
theorem pointAdditionLaws : Obligations.PointAdditionLaws := by
  refine fun c p => ⟨ptAdd_identity c p, identity_ptAdd c p, ptAdd_self c, ptAdd_inverse c, ptDouble_of_x_eq_zero c,
    ?double, fun q => ptAdd_of_x_eq c, ?sum⟩
  case double =>
    rintro v lam x3 hx hv rfl rfl
    obtain ⟨-, rfl⟩ := gfInv_ok hv
    exact ptDouble_of_x_ne_zero c hx
  case sum =>
    rintro q v lam x3 hp hq hx hv rfl rfl
    obtain ⟨-, rfl⟩ := gfInv_ok hv
    exact ptAdd_of_x_ne c hp hq hx

/-- A test of even point registers answers in RES whether its condition holds (R53). -/
theorem completes_of_test {i : Instr} {s : State} {rs : List Reg} {b : Bool} {w : WorkBuffers} {P : Prop} [Decidable P]
    (hexec : exec i s = completeOnPoints rs s (stageRes (truthWord b)) w) (heven : ∀ r ∈ rs, r.toNat % 2 = 0)
    (hb : b = true ↔ P) : Completes i s (kept s) (if P then 1 else 0) := by
  rw [← truthWord_eq_ite hb]
  exact completes_of_stageRes (hexec.trans (completeOnPoints_even (any_oddReg_of_even heven) s _ w))

/-- Settles O53: each stages the answer of its test on the latched point. -/
theorem pisidPoncAnswerInRes : Obligations.PisidPoncAnswerInRes := by
  intro s pa ha
  have heven : ∀ r ∈ [pa], r.toNat % 2 = 0 := by simp [ha]
  refine ⟨completes_of_test rfl heven (isIdentity_iff (latchedP s pa)), ?_⟩
  rintro _ _ rfl rfl
  exact completes_of_test rfl heven (onCurve_iff s.rom (latchedP s pa))

end Sys2Proof.Safety
end

section
/-! PROOFS. The field that the elements are (00_scope.md R2, R9), and the point operations as those of the Weierstrass
curve `y² + xy = x³ + x² + b` over it (42_point.md R86 to R89). -/

namespace Sys2Proof.Safety

open Polynomial WeierstrassCurve Sys2Proof.Machine

/-! The field (R2) -/

/-- An element read in the quotient of the polynomials over GF(2) by `f` (R2, R9). -/
noncomputable def inField (f : Buf) (x : Elem) : AdjoinRoot (polyOf f) := AdjoinRoot.mk (polyOf f) (polyOf x)

@[simp] theorem inField_zero (f : Buf) : inField f 0 = 0 := by rw [inField, polyOf_zero, map_zero]

@[simp] theorem inField_one (f : Buf) : inField f 1 = 1 := by rw [inField, polyOf_one, map_one]

@[simp] theorem inField_xor (f : Buf) (x y : Elem) : inField f (x ^^^ y) = inField f x + inField f y := by
  rw [inField, polyOf_xor, map_add, inField, inField]

@[simp] theorem inField_gfAdd (f : Buf) (x y : Elem) : inField f (gfAdd x y) = inField f x + inField f y :=
  inField_xor f x y

@[simp] theorem inField_gfInc (f : Buf) (x : Elem) : inField f (gfInc x) = inField f x + 1 := by
  rw [gfInc, inField_xor, inField_one]

/-- The field has characteristic 2. -/
theorem two_eq_zero (f : Buf) : (2 : AdjoinRoot (polyOf f)) = 0 := by
  have hone : inField f (1 ^^^ 1) = 0 := BitVec.xor_self ▸ inField_zero f
  rwa [inField_xor, inField_one, one_add_one_eq_two] at hone

/-- The sum is the difference (R75). -/
theorem inField_gfAdd_eq_sub (f : Buf) (x y : Elem) : inField f (gfAdd x y) = inField f x - inField f y := by
  rw [inField_gfAdd]
  linear_combination inField f y * two_eq_zero f

section Modulus

variable {f : Buf} (hf : bitlen f = 164)

include hf

theorem inField_injective : Function.Injective (inField f) := by
  intro x y h
  have hdvd : polyOf f ∣ polyOf (x ^^^ y) := by
    rw [polyOf_xor, ← CharTwo.sub_eq_add]
    exact AdjoinRoot.mk_eq_mk.mp h
  have hzero := eq_zero_of_dvd_of_degree_lt hdvd ((degree_polyOf_lt _).trans_eq (degree_modulus hf).symm)
  rw [polyOf_xor, CharTwo.add_eq_zero] at hzero
  exact polyOf_injective hzero

theorem inField_ne_zero {x : Elem} (hx : x ≠ 0) : inField f x ≠ 0 := fun h =>
  hx (inField_injective hf (h.trans (inField_zero f).symm))

/-- `gf_mul` is the product of the field (R77.4). -/
theorem inField_gfMul (x y : Elem) : inField f (gfMul f x y) = inField f x * inField f y := by
  rw [inField, polyOf_gfMul hf, modByMonic_eq_sub_mul_div, map_sub, map_mul, map_mul, AdjoinRoot.mk_self, zero_mul,
    sub_zero, inField, inField]

theorem isCoprime_of_irreducible (hirr : Irreducible (polyOf f)) {x : Elem} (hx : x ≠ 0) :
    IsCoprime (polyOf x) (polyOf f) := by
  refine (hirr.coprime_iff_not_dvd.mpr fun hdvd => hx (polyOf_injective ?_)).symm
  rw [polyOf_zero]
  exact eq_zero_of_dvd_of_degree_lt hdvd ((degree_polyOf_lt x).trans_eq (degree_modulus hf).symm)

/-- The value of the inversion loop is the inverse in the field (R79). -/
theorem inField_gfInvert [hirr : Fact (Irreducible (polyOf f))] {x : Elem} (hx : x ≠ 0) :
    inField f (gfInvert f x) = (inField f x)⁻¹ := by
  obtain ⟨-, -, v, hv, hmul⟩ := inversionLoopGivesTheInverse f x hf (isCoprime_of_irreducible hf hirr.out hx)
  obtain ⟨-, rfl⟩ := gfInv_ok hv
  apply eq_inv_of_mul_eq_one_right
  rw [← inField_gfMul hf, hmul, inField_one]

end Modulus

/-! The curve (R86) -/

/-- The curve `y² + xy = x³ + x² + b` over the field. -/
noncomputable def weierstrass (c : Curve) : Affine (AdjoinRoot (polyOf c.f)) :=
  { a₁ := 1, a₂ := 1, a₃ := 0, a₄ := 0, a₆ := inField c.f c.b }

/-- The coordinates of the point satisfy the equation of R86. -/
def OnWeierstrass (c : Curve) (p : Point) : Prop := (weierstrass c).Equation (inField c.f p.x) (inField c.f p.y)

section Equation

variable {c : Curve} (hf : bitlen c.f = 164)

include hf

theorem onCurve_iff_onWeierstrass (p : Point) : onCurve c p = true ↔ p = identity ∨ OnWeierstrass c p := by
  rw [onCurve_iff, ← point_eq_zero_iff, ← (inField_injective hf).eq_iff, OnWeierstrass,
    Affine.equation_iff]
  refine or_congr Iff.rfl ?_
  simp only [inField_xor, inField_gfMul hf, weierstrass]
  constructor <;> intro h <;> linear_combination h

theorem onCurve_of_onWeierstrass {p : Point} (h : OnWeierstrass c p) : onCurve c p = true :=
  (onCurve_iff_onWeierstrass hf p).mpr (.inr h)

theorem onWeierstrass_of_onCurve {p : Point} (h : onCurve c p = true) (hp : p ≠ identity) : OnWeierstrass c p :=
  ((onCurve_iff_onWeierstrass hf p).mp h).resolve_left hp

end Equation

theorem inField_sub_negY (c : Curve) (p : Point) :
    inField c.f p.y - (weierstrass c).negY (inField c.f p.x) (inField c.f p.y) = inField c.f p.x := by
  rw [Affine.negY, weierstrass]
  linear_combination inField c.f p.y * two_eq_zero c.f

/-! The slope of the line and the third point (R87, R88) -/

section Operations

variable {c : Curve} {p q : Point} [Fact (Irreducible (polyOf c.f))] (hf : bitlen c.f = 164)

include hf

/-- `lam` of R87, cleared of its division. -/
theorem inField_doubleLam_mul (hx : p.x ≠ 0) :
    inField c.f (doubleLam c p) * inField c.f p.x = inField c.f p.x ^ 2 + inField c.f p.y := by
  have hX := inField_ne_zero hf hx
  rw [doubleLam, inField_gfAdd, inField_gfMul hf, inField_gfInvert hf hx]
  field_simp

/-- `lam` of R88 is a quotient of sums, which are differences in characteristic 2. -/
theorem inField_addLam (hx : p.x ≠ q.x) : inField c.f (addLam c p q) =
    (inField c.f p.y - inField c.f q.y) / (inField c.f p.x - inField c.f q.x) := by
  have hsum : gfAdd p.x q.x ≠ 0 := fun h => hx (BitVec.xor_eq_zero_iff.mp h)
  rw [addLam, inField_gfMul hf, inField_gfInvert hf hsum, inField_gfAdd_eq_sub, inField_gfAdd_eq_sub, div_eq_mul_inv]

/-- A point whose `x` is not 0 is not its own inverse. -/
theorem y_ne_negY (hx : p.x ≠ 0) :
    inField c.f p.y ≠ (weierstrass c).negY (inField c.f p.x) (inField c.f p.y) :=
  sub_ne_zero.mp ((inField_sub_negY c p).trans_ne (inField_ne_zero hf hx))

variable [DecidableEq (AdjoinRoot (polyOf c.f))]

/-- `lam` of R87 is the slope of the tangent. -/
theorem inField_doubleLam (hx : p.x ≠ 0) : inField c.f (doubleLam c p) =
    (weierstrass c).slope (inField c.f p.x) (inField c.f p.x) (inField c.f p.y) (inField c.f p.y) := by
  have hy := y_ne_negY hf hx
  rw [Affine.slope_of_Y_ne rfl hy, inField_sub_negY, eq_div_iff (inField_ne_zero hf hx),
    inField_doubleLam_mul hf hx, weierstrass]
  linear_combination (inField c.f p.y - inField c.f p.x ^ 2 - inField c.f p.x) * two_eq_zero c.f

/-- The double is the curve's sum of the point with itself. -/
theorem onWeierstrass_ptDouble (hp : OnWeierstrass c p) (hx : p.x ≠ 0) : OnWeierstrass c (ptDouble c p) := by
  have hsum := Affine.equation_add hp hp fun ⟨_, hy⟩ => y_ne_negY hf hx hy
  rw [← inField_doubleLam hf hx] at hsum
  have hx3 : inField c.f (ptDouble c p).x =
      (weierstrass c).addX (inField c.f p.x) (inField c.f p.x) (inField c.f (doubleLam c p)) := by
    rw [ptDouble_of_x_ne_zero c hx, Affine.addX, weierstrass, doubleX, inField_gfInc, inField_gfAdd, inField_gfMul hf]
    linear_combination (1 + inField c.f p.x) * two_eq_zero c.f
  have hy3 : inField c.f (ptDouble c p).y =
      (weierstrass c).addY (inField c.f p.x) (inField c.f p.x) (inField c.f p.y) (inField c.f (doubleLam c p)) := by
    rw [Affine.addY, Affine.negAddY, ← hx3, Affine.negY, ptDouble_of_x_ne_zero c hx]
    simp only [weierstrass, inField_gfInc, inField_gfAdd, inField_gfMul hf]
    linear_combination (inField c.f (doubleLam c p) + 1) * inField c.f (doubleX c (doubleLam c p)) * two_eq_zero c.f -
      inField_doubleLam_mul hf hx
  rwa [OnWeierstrass, hx3, hy3]

/-- The general sum is the curve's sum. -/
theorem onWeierstrass_ptAddGeneral (hp : OnWeierstrass c p) (hq : OnWeierstrass c q) (hx : p.x ≠ q.x) :
    OnWeierstrass c (ptAddGeneral c p q) := by
  have hX : inField c.f p.x ≠ inField c.f q.x := (inField_injective hf).ne hx
  have hsum := Affine.equation_add hp hq fun ⟨h, _⟩ => hX h
  rw [Affine.slope_of_X_ne hX, ← inField_addLam hf hx] at hsum
  have hx3 : inField c.f (ptAddGeneral c p q).x =
      (weierstrass c).addX (inField c.f p.x) (inField c.f q.x) (inField c.f (addLam c p q)) := by
    simp only [ptAddGeneral, addX, Affine.addX, weierstrass, inField_gfInc, inField_gfAdd, inField_gfMul hf]
    linear_combination (1 + inField c.f p.x + inField c.f q.x) * two_eq_zero c.f
  have hy3 : inField c.f (ptAddGeneral c p q).y =
      (weierstrass c).addY (inField c.f p.x) (inField c.f q.x) (inField c.f p.y) (inField c.f (addLam c p q)) := by
    rw [Affine.addY, Affine.negAddY, ← hx3, Affine.negY]
    simp only [weierstrass, ptAddGeneral, inField_gfAdd, inField_gfMul hf]
    linear_combination ((inField c.f (addLam c p q) + 1) * inField c.f (addX c p q (addLam c p q)) + inField c.f p.y) *
      two_eq_zero c.f
  rwa [OnWeierstrass, hx3, hy3]

end Operations

/-! On-curve closure (R89) -/

section Closure

variable {c : Curve} {p q : Point} (hf : bitlen c.f = 164) (hirr : Irreducible (polyOf c.f))

include hf hirr

theorem onCurve_ptDouble (hp : onCurve c p = true) : onCurve c (ptDouble c p) = true := by
  classical
  have : Fact (Irreducible (polyOf c.f)) := ⟨hirr⟩
  by_cases hx : p.x = 0
  · rw [ptDouble_of_x_eq_zero c hx, onCurve_identity]
  · have hpW := onWeierstrass_of_onCurve hf hp (ne_identity_of_x_ne_zero hx)
    exact onCurve_of_onWeierstrass hf (onWeierstrass_ptDouble hf hpW hx)

theorem onCurve_ptAdd (hp : onCurve c p = true) (hq : onCurve c q = true) : onCurve c (ptAdd c p q) = true := by
  classical
  have : Fact (Irreducible (polyOf c.f)) := ⟨hirr⟩
  by_cases hp0 : p = identity
  · rwa [hp0, identity_ptAdd]
  by_cases hq0 : q = identity
  · rwa [hq0, ptAdd_identity]
  rw [ptAdd_of_both_ne_identity c hp0 hq0]
  split_ifs with hx hy
  · exact onCurve_ptDouble hf hirr hp
  · exact onCurve_identity c
  · exact onCurve_of_onWeierstrass hf (onWeierstrass_ptAddGeneral hf (onWeierstrass_of_onCurve hf hp hp0)
      (onWeierstrass_of_onCurve hf hq hq0) hx)

end Closure

/-- The default `f` is irreducible: a factor of it that is irreducible has its degree. -/
theorem irreducible_k163 : Irreducible (polyOf Config.k163.f) := by
  have hdeg : (polyOf Config.k163.f).natDegree = 163 := natDegree_eq_of_degree_eq_some (degree_modulus bitlen_k163)
  have hne := (monic_modulus bitlen_k163).ne_zero
  have hunit : ¬ IsUnit (polyOf Config.k163.f) := not_isUnit_polyOf (by rw [bitlen_k163]; decide)
  obtain ⟨p, hp, hdvd⟩ := WfDvdMonoid.exists_irreducible_factor hunit hne
  have hle : (polyOf Config.k163.f).natDegree ≤ p.natDegree :=
    (hdeg.trans (natDegree_of_irreducible_dvd_k163 hp hdvd).symm).le
  exact (associated_of_dvd_of_natDegree_le hdvd hne hle).irreducible hp

/-- Settles O56: the default `f` is irreducible, so that the operations are those of a curve over a field. -/
theorem pointOperationsStayOnTheCurve : Obligations.PointOperationsStayOnTheCurve := fun _ _ hp hq =>
  ⟨onCurve_ptDouble bitlen_k163 irreducible_k163 hp, onCurve_ptAdd bitlen_k163 irreducible_k163 hp hq⟩

end Sys2Proof.Safety
end


section
/-! PROOFS. Double-and-add (43_scalar.md R95, R96): what a low bit more of the scalar adds to the multiple, the scalars 0,
1 and 2, and the multiples of the identity. -/

namespace Sys2Proof.Machine

/-! One iteration of the scalar loop (R95) -/

@[simp] theorem scalarStep_false (c : Curve) (p r : Point) : scalarStep c p false r = ptDouble c r := rfl

@[simp] theorem scalarStep_true (c : Curve) (p r : Point) : scalarStep c p true r = ptAdd c (ptDouble c r) p := rfl

@[simp] theorem ptDouble_identity (c : Curve) : ptDouble c identity = identity := ptDouble_of_x_eq_zero c rfl

/-- The first iteration of the loop, for the highest set bit (R96.4). -/
theorem scalarStep_true_identity (c : Curve) (p : Point) : scalarStep c p true identity = p := by
  rw [scalarStep_true, ptDouble_identity, identity_ptAdd]

/-- With `P` the identity, the accumulator stays there whether the bit is set or not. -/
theorem scalarStep_identity_identity (c : Curve) (b : Bool) : scalarStep c identity b identity = identity := by
  cases b with
  | false => exact ptDouble_identity c
  | true => exact scalarStep_true_identity c identity

/-! The loop (R95) -/

theorem scalarLoop_identity_identity (c : Curve) (k : Elem) (m : Nat) : scalarLoop c identity k m identity = identity := by
  induction m with
  | zero => rfl
  | succ m ih => rw [scalarLoop, scalarStep_identity_identity, ih]

theorem scalarMultiply_identity (c : Curve) (k : Elem) : scalarMultiply c identity k = identity :=
  scalarLoop_identity_identity c k _

theorem toWork_injective : Function.Injective toWork := fun p q h => by
  obtain ⟨hx, hy⟩ := WorkPoint.mk.inj h
  exact congrArg₂ Point.mk (toBuf_inj.mp hx) (toBuf_inj.mp hy)

/-- The point `R` that the loop on the working buffers ends with is the multiple. -/
@[simp] theorem workScalar_rPoint (c : Curve) (n : Nat) (p : Point) (k : Elem) (w : WorkBuffers) :
    (workScalar c n p k w).rPoint = toWork (scalarMultiply c p k) :=
  Safety.workScalarLoop_rPoint c n p k _ _ _ rfl

/-- A scalar with one more low bit `b`: one more iteration, for `b`, as the loop on the working buffers shows by its `R`. -/
theorem scalarMultiply_bit {b : Bool} {k k' : Elem} (hk : k'.toNat = Nat.bit b k.toNat) (c : Curve) (p : Point) :
    scalarMultiply c p k' = scalarStep c p b (scalarMultiply c p k) := by
  have hR := congrArg WorkBuffers.rPoint (Safety.workScalar_bit hk c 0 p State.reset.work)
  rw [workScalar_rPoint, workScalarStep_rPoint] at hR
  exact toWork_injective hR

/-! The scalars 0, 1 and 2 (R96) -/

theorem scalarMultiply_zero (c : Curve) (p : Point) : scalarMultiply c p 0 = identity := rfl

theorem scalarMultiply_one (c : Curve) (p : Point) : scalarMultiply c p 1 = p := by
  have hbit : (1 : Elem).toNat = Nat.bit true (0 : Elem).toNat := rfl
  rw [scalarMultiply_bit hbit, scalarMultiply_zero, scalarStep_true_identity]

theorem scalarMultiply_two (c : Curve) (p : Point) : scalarMultiply c p 2 = ptDouble c p := by
  have hbit : (2 : Elem).toNat = Nat.bit false (1 : Elem).toNat := rfl
  rw [scalarMultiply_bit hbit, scalarMultiply_one, scalarStep_false]

end Sys2Proof.Machine

namespace Sys2Proof.Safety

open Sys2Proof.Machine

/-- Settles O57: the shifted scalar is the scalar with one more low bit. -/
theorem scalarMultiplyDoublesAndAdds : Obligations.ScalarMultiplyDoublesAndAdds := fun c p _ =>
  ⟨scalarMultiply_zero c p, fun hk =>
    ⟨scalarMultiply_bit (toNat_shl_one hk) c p, scalarMultiply_bit (toNat_shl_one_or_one hk) c p⟩⟩

/-- Settles O58, the multiples of the identity by induction on the iterations of the loop. -/
theorem scalarMultiplyCornerCases : Obligations.ScalarMultiplyCornerCases := fun c p k =>
  ⟨scalarMultiply_one c p, scalarMultiply_two c p, scalarMultiply_identity c k⟩

end Sys2Proof.Safety
end

section
/-! PROOFS. Execution errors and the idle block (60_exceptions.md R99, R101, R112): which error each command that decodes
can raise, and a block that has nothing to do. -/

namespace Sys2Proof.Safety

open Sys2Proof.Machine

/-! The values or errors of the pseudocode (R63, R64, R69, R78) -/

theorem bitIndex_of_getBit_error {v : Buf} {i : Nat} {e : CmdError} (h : getBit v i = .error e) : e = .bitIndex := by
  by_cases hi : i < 192
  · rw [getBit_of_lt v hi] at h
    cases h
  · rw [getBit_of_not_lt v hi] at h
    cases h
    rfl

theorem bitIndex_of_clearBit_error {v : Buf} {i : Nat} {e : CmdError} (h : clearBit v i = .error e) :
    e = .bitIndex := by
  by_cases hi : i < 192
  · rw [clearBit_of_lt v hi] at h
    cases h
  · rw [clearBit_of_not_lt v hi] at h
    cases h
    rfl

theorem zeroInverse_of_gfInv_error {f : Buf} {x : Elem} {e : CmdError} (h : gfInv f x = .error e) :
    e = .zeroInverse := by
  by_cases hx : x = 0
  · rw [gfInv, if_pos hx] at h
    cases h
    rfl
  · rw [gfInv_of_ne_zero f hx] at h
    cases h

/-- LDC has a constant for every selector that the decoder lets through (R54, R69). -/
theorem romConstant_of_valid (c : Curve) {sel : BitVec 8} (h : validSelector sel = true) :
    ∃ v, romConstant c sel = .ok v := by
  have hsel : sel.toNat ≤ 5 := by simpa [validSelector] using h
  unfold romConstant
  generalize sel.toNat = n at hsel
  interval_cases n <;> exact ⟨_, rfl⟩

/-! What a command may raise -/

/-- The execution errors of a command: FINV has ZERO_INVERSE, GETBIT and CLRBIT have BIT_INDEX (R101). -/
def MayRaise (i : Instr) (e : CmdError) : Prop :=
  (e = .zeroInverse ∧ mnemonicOf i = .FINV) ∨ (e = .bitIndex ∧ (mnemonicOf i = .GETBIT ∨ mnemonicOf i = .CLRBIT))

/-- A result that is no error, or an error that its command may raise. -/
def RaisesOnlyItsErrors (i : Instr) : CmdResult → Prop
  | .writes _ _ => True
  | .error e => MayRaise i e

/-- A value or an error on a destination raises no more than the error does. -/
theorem raisesOnlyItsErrors_stageOr {α : Type} {i : Instr} {stage : α → CmdResult} {x : Except CmdError α}
    (hok : ∀ v, RaisesOnlyItsErrors i (stage v)) (herr : ∀ e, x = .error e → MayRaise i e) :
    RaisesOnlyItsErrors i (stageOr stage x) := by
  cases x with
  | ok v => exact hok v
  | error e => exact herr e rfl

theorem any_oddReg_of_all_even {rs : List Reg} (h : rs.all evenReg = true) : rs.any oddReg = false := by
  simpa [evenReg, oddReg] using h

/-- Every meaning of a command that decodes is the end of a command with a result that raises only the command's own
errors: LDC finds its constant, and a point command's registers are even. -/
theorem exec_complete_raisesOnlyItsErrors {i : Instr} (hwf : i.wellFormed = true) (s : State) :
    ∃ r w, exec i s = complete s r w ∧ RaisesOnlyItsErrors i r := by
  cases i with
  | ldc fd sel =>
    obtain ⟨v, hv⟩ := romConstant_of_valid s.rom hwf
    exact ⟨stageF fd v, s.work, by rw [exec, execLdc, hv, stageOr_ok], trivial⟩
  | getbit =>
    exact ⟨_, _, rfl, raisesOnlyItsErrors_stageOr (fun _ => trivial)
      fun _ he => .inr ⟨bitIndex_of_getBit_error he, .inl rfl⟩⟩
  | clrbit =>
    exact ⟨_, _, rfl, raisesOnlyItsErrors_stageOr (fun _ => trivial)
      fun _ he => .inr ⟨bitIndex_of_clearBit_error he, .inr rfl⟩⟩
  | finv =>
    exact ⟨_, _, rfl, raisesOnlyItsErrors_stageOr (fun _ => trivial)
      fun _ he => .inl ⟨zeroInverse_of_gfInv_error he, rfl⟩⟩
  | pisid | ponc | pdbl | padd | pmul =>
    refine ⟨_, _, completeOnPoints_even (any_oddReg_of_all_even ?_) s _ _, trivial⟩
    simpa [Instr.wellFormed, and_assoc] using hwf
  | fmov | iszero | eq | deg | fadd | finc | fmul => exact ⟨_, _, rfl, trivial⟩

/-- Settles O13: the code in STATUS is that of the staged error, which is one of the command's own. -/
theorem commandsRaiseOnlyTheirErrors : Obligations.CommandsRaiseOnlyTheirErrors := by
  intro i s t e hwf ht hcode
  obtain ⟨r, w, hr, hraise⟩ := exec_complete_raisesOnlyItsErrors hwf s
  rcases complete_cases (hr.symm.trans ht) with ⟨_, _, -, -, -, hst⟩ | ⟨e', rfl, -, -, hst⟩
  · rw [hst, committedStatus_ecode] at hcode
    cases hcode
  · rw [hst, committedStatus_ecode] at hcode
    cases hcode
    exact hraise

/-- Settles O22: the step is a turn of the CORE, which has no command in progress. -/
theorem idleBlockDoesNothing : Obligations.IdleBlockDoesNothing := fun _ hb hp =>
  (step_port_nil hp).trans (coreTurn_idle hb)

end Sys2Proof.Safety
end

section
/-! PROOFS. Reset (70_reset_and_hazards.md R113): the state it leaves and the command it abandons. -/

namespace Sys2Proof.Safety

open Sys2Proof.Machine

/-- Reset clears BUSY, so the turn of the CORE after it finds no command to commit (R112, R113). -/
theorem coreTurn_reset (fl : Option Transaction) (s : State) : coreTurn (reset fl s) = .next (reset fl s) :=
  coreTurn_idle (congrArg Status.busy (reset_status fl s))

/-- Settles O21: the step is `reset` on the state whose port holds the events after it. -/
theorem resetStepReachesTheResetState : Obligations.ResetStepReachesTheResetState := by
  intro s fl rest hport
  have hregs (s : State) (r : Reg) : readReg (reset fl s).f r = 0 := by rw [reset_f, readReg_replicate]
  exact ⟨_, step_rst hport, hregs _, reset_res .., reset_status .., reset_latchWord .., reset_rom .., reset_port ..,
    coreTurn_reset ..⟩

end Sys2Proof.Safety
end
